-- ==== Sys2Proof/Word.lean ====
section
/-! DEFINITION. The word types of the block (R7, R8, R9 of spec/00_scope.md). -/

namespace Sys2Proof

/-- A word of the block: 64 bits, bit 0 the least significant (R7, R8). -/
abbrev Word := BitVec 64

/-- The operation selector `op[4:0]` (R16 of spec/10_state.md). -/
abbrev OpCode := BitVec 5

end Sys2Proof
end

