-- ==== Sys2Proof/Syntax.lean ====
section
/-! DEFINITION. Commands as the host presents them, and the instructions they stand for: one constructor for each row
of spec/opcode_table.json. -/

namespace Sys2Proof

/-- The one command format `CMD`: the triple `(op[4:0], a[63:0], b[63:0])` on the input ports, sampled together
(R16 of spec/10_state.md, R38 of spec/30_encoding.md). -/
structure Command where
  op : OpCode
  a  : Word
  b  : Word
  deriving DecidableEq, Repr

/-- The seventeen operations (R39 of spec/30_encoding.md), each with the two operand words of its command. Both words
stand in every constructor, since the ports always carry both; which bits of them an operation reads is a matter of its
meaning (R40), not of the syntax. -/
inductive Instr where
  | isboxed   (a b : Word)
  | isdouble  (a b : Word)
  | tprefix   (a b : Word)
  | tpmask    (a b : Word)
  | indpos    (a b : Word)
  | tiwidth   (a b : Word)
  | tpwidth   (a b : Word)
  | boxi32    (a b : Word)
  | unboxi32  (a b : Word)
  | boxf32    (a b : Word)
  | unboxf32  (a b : Word)
  | boxbool   (a b : Word)
  | unboxbool (a b : Word)
  | boxptr    (a b : Word)
  | unboxptr  (a b : Word)
  | boxcptr   (a b : Word)
  | unboxcptr (a b : Word)
  deriving DecidableEq, Repr

/-- What the decoder says of a command: the operation it selects, or a reserved `op` value by its number (R41). -/
inductive Decoded where
  | legal (i : Instr)
  | reservedOp (op : OpCode)
  deriving DecidableEq, Repr

end Sys2Proof
end

