-- ==== Sys2Proof/WellFormed.lean ====
section
/-! DEFINITION. Well-formed instructions: the commands that the assembler syntax of R43 (spec/30_encoding.md) produces.
Every operand word is legal for the block, so the one check is the assembler's: "Unused `b` is driven as 0". The block
itself ignores an unused `b` (R40), and the model runs a command that fails this check like any other. -/

namespace Sys2Proof

/-- R43: the unused operand of a one-operand operation is driven as 0. TPREFIX uses both operands. -/
def Instr.wellFormed : Instr → Bool
  | .isboxed _ b   => b == 0
  | .isdouble _ b  => b == 0
  | .tprefix _ _   => true
  | .tpmask _ b    => b == 0
  | .indpos _ b    => b == 0
  | .tiwidth _ b   => b == 0
  | .tpwidth _ b   => b == 0
  | .boxi32 _ b    => b == 0
  | .unboxi32 _ b  => b == 0
  | .boxf32 _ b    => b == 0
  | .unboxf32 _ b  => b == 0
  | .boxbool _ b   => b == 0
  | .unboxbool _ b => b == 0
  | .boxptr _ b    => b == 0
  | .unboxptr _ b  => b == 0
  | .boxcptr _ b   => b == 0
  | .unboxcptr _ b => b == 0

end Sys2Proof
end

