-- ==== Sys2Proof/Decode.lean ====
section
/-! DEFINITION. The decoder, total on every command, and the encoder (R38 to R42 of spec/30_encoding.md). `op` alone
selects the operation; `a` and `b` have no sub-fields that the decoder reads (R38), and no mode changes decoding (R42). -/

namespace Sys2Proof

/-- The operation map of R39. The values it does not list, 0x07 and 0x12 to 0x1F, are the reserved ones (R41). -/
def decode (c : Command) : Decoded :=
  match c.op.toNat with
  | 0x00 => .legal (.isboxed c.a c.b)
  | 0x01 => .legal (.isdouble c.a c.b)
  | 0x02 => .legal (.tprefix c.a c.b)
  | 0x03 => .legal (.tpmask c.a c.b)
  | 0x04 => .legal (.indpos c.a c.b)
  | 0x05 => .legal (.tiwidth c.a c.b)
  | 0x06 => .legal (.tpwidth c.a c.b)
  | 0x08 => .legal (.boxi32 c.a c.b)
  | 0x09 => .legal (.unboxi32 c.a c.b)
  | 0x0A => .legal (.boxf32 c.a c.b)
  | 0x0B => .legal (.unboxf32 c.a c.b)
  | 0x0C => .legal (.boxbool c.a c.b)
  | 0x0D => .legal (.unboxbool c.a c.b)
  | 0x0E => .legal (.boxptr c.a c.b)
  | 0x0F => .legal (.unboxptr c.a c.b)
  | 0x10 => .legal (.boxcptr c.a c.b)
  | 0x11 => .legal (.unboxcptr c.a c.b)
  | _    => .reservedOp c.op

/-- The command that presents an instruction: its `op[4:0]` pattern as R39's second column writes it, and its operands. -/
def Instr.command : Instr → Command
  | .isboxed a b   => ⟨0b00000#5, a, b⟩
  | .isdouble a b  => ⟨0b00001#5, a, b⟩
  | .tprefix a b   => ⟨0b00010#5, a, b⟩
  | .tpmask a b    => ⟨0b00011#5, a, b⟩
  | .indpos a b    => ⟨0b00100#5, a, b⟩
  | .tiwidth a b   => ⟨0b00101#5, a, b⟩
  | .tpwidth a b   => ⟨0b00110#5, a, b⟩
  | .boxi32 a b    => ⟨0b01000#5, a, b⟩
  | .unboxi32 a b  => ⟨0b01001#5, a, b⟩
  | .boxf32 a b    => ⟨0b01010#5, a, b⟩
  | .unboxf32 a b  => ⟨0b01011#5, a, b⟩
  | .boxbool a b   => ⟨0b01100#5, a, b⟩
  | .unboxbool a b => ⟨0b01101#5, a, b⟩
  | .boxptr a b    => ⟨0b01110#5, a, b⟩
  | .unboxptr a b  => ⟨0b01111#5, a, b⟩
  | .boxcptr a b   => ⟨0b10000#5, a, b⟩
  | .unboxcptr a b => ⟨0b10001#5, a, b⟩

/-- A command as one number (DESIGN CHOICE, log 5): bits 4..0 are `op`, as spec/opcode_table.json numbers them, bits
68..5 are `a`, and bits 132..69 are `b`. The block has no bytes and no byte order (R29 of spec/20_memory.md). -/
def Command.toBits (c : Command) : BitVec 133 := c.b ++ c.a ++ c.op

/-- The ports' values in a command written as one number (the inverse of `Command.toBits`, log 5). -/
def Command.ofBits (w : BitVec 133) : Command :=
  { op := w.extractLsb' 0 5, a := w.extractLsb' 5 64, b := w.extractLsb' 69 64 }

/-- The encoder: an instruction's command as one number. -/
def encode (i : Instr) : BitVec 133 := i.command.toBits

/-- The decoder on a command written as one number. -/
def decodeBits (w : BitVec 133) : Decoded := decode (Command.ofBits w)

/-- The command whose lowest `nbits` bits are those of `w` and whose other bits are 0. -/
def Command.ofTableWord (nbits w : Nat) : Command := Command.ofBits (BitVec.ofNat 133 (w % 2 ^ nbits))

/-- The instruction the decoder reads from a word numbered as spec/opcode_table.json numbers its bits. -/
def decodeTableWord (nbits w : Nat) : Option Instr :=
  match decode (Command.ofTableWord nbits w) with
  | .legal i => some i
  | .reservedOp _ => none

end Sys2Proof
end

