-- ==== Sys2Proof/Machine/Constants.lean ====
section
/-! DEFINITION. The hardwired constants of the block, as the literals of R22 (spec/10_state.md). "The block stores the
literals of rule R22. It does not recompute them" (R23). -/

namespace Sys2Proof.Machine

/-- The classification boundary. -/
def nanValue : Word := 0x7FF8000000000000#64

/-- Clears the sign bit only. -/
def boxedMask : Word := 0x7FFFFFFFFFFFFFFF#64

/-- Bits 50..0 (C1 of spec/90_conflicts.md: the literal, not "the low 52 bits"). -/
def mantissaMask : Word := 0x0007FFFFFFFFFFFF#64

/-- Bit 50; the indicator is this bit shifted right (C2). -/
def indicatorUnit : Word := 0x0004000000000000#64

def allOnes : Word := 0xFFFFFFFFFFFFFFFF#64

/-- The pointer payload mask, bits 47..0. -/
def ptrMask : Word := 0x0000FFFFFFFFFFFF#64

/-- The int stencil, distinct from the float stencil (R84 of spec/42_payload_codecs.md, C7). -/
def stencilI32 : Word := 0x7FF8040000000000#64

def stencilF32 : Word := 0x7FF8040100000000#64

def stencilBool : Word := 0x7FF8000008000000#64

def stencilPtr : Word := 0x7FFC000000000000#64

def stencilCptr : Word := 0x7FFD000000000000#64

end Sys2Proof.Machine
end

