-- ==== Sys2Proof/Machine/Operands.lean ====
section
/-! DEFINITION. Operand assembly and result widening (R40, R49 of spec/30_encoding.md; the operators of R9 of
spec/00_scope.md). -/

namespace Sys2Proof.Machine

/-- `a[31:0]`: the operand of the int and float codecs. -/
def low32 (a : Word) : BitVec 32 := a.extractLsb' 0 32

/-- `a[0]`: the operand of the bool codec. -/
def bit0 (a : Word) : Bool := a.getLsbD 0

/-- `a[47:0]` zero-extended: the operand of the pointer codecs, `a & PTR_MASK` (R76 of spec/42_payload_codecs.md). -/
def low48 (a : Word) : Word := a &&& ptrMask

/-- `zext_64` of a 32-bit value (R9). -/
def zext64 (v : BitVec 32) : Word := v.zeroExtend 64

/-- `sext_64` of a 32-bit value (R9; D7 of spec/92_eei_decisions.md). -/
def sext64 (v : BitVec 32) : Word := v.signExtend 64

/-- `zext_64` of a bool: the words 0 and 1 (R9, R49). -/
def boolWord (v : Bool) : Word := if v then 1#64 else 0#64

/-- `wrap_64`: a mathematical integer as its 64-bit two's-complement word (R9; D11 of spec/92_eei_decisions.md). -/
def wrap64 (n : Int) : Word := BitVec.ofInt 64 n

/-- The number of leading zeros among bits n-1..0 of `x`. -/
def leadingZeros (x : Word) : Nat → Nat
  | 0 => 0
  | n + 1 => if x.getLsbD n then 0 else leadingZeros x n + 1

/-- `clz64` (R9), with `clz64(0) = 64` (D12 of spec/92_eei_decisions.md, a case no operation reaches; log 14). -/
def clz64 (x : Word) : Nat := leadingZeros x 64

end Sys2Proof.Machine
end

