-- ==== Sys2Proof/Config.lean ====
section
/-! DEFINITION. The two parameters the block leaves open (R7 of spec/00_scope.md, "Open parameters" of
spec/92_eei_decisions.md). Neither has a body, so no proof can rest on a value of it. -/

namespace Sys2Proof

/-- The byte order in which a host stores words (R29 of spec/20_memory.md). -/
inductive ByteOrder where
  | little
  | big
  deriving DecidableEq, Repr, Inhabited

/-- `PIPELINE_LATENCY`: the number of cycles from command to result, 0 or more, the same for every operation
(R7, R105, R106). Read only by the pipelined view of Machine/Pipeline.lean; no operation's meaning reads it. -/
opaque Config.pipelineLatency : Nat

/-- `HOST_BYTE_ORDER` (R7, R29): the block never sees it, and nothing in the model reads it. -/
opaque Config.hostByteOrder : ByteOrder

end Sys2Proof
end

