-- ==== Sys2Proof/Machine/State.lean ====
section
/-! DEFINITION. What a step reads and leaves behind. The block keeps no state of its own (R15 of spec/10_state.md: "A
Lean model's machine state for this block is the unit type"); State is its ports: the commands the host has presented
and the outputs the block last drove (log 1). -/

namespace Sys2Proof.Machine

/-- The status codes the block drives (R87 of spec/60_exceptions.md). The fourth code, 3, is "never driven", so it has
no constructor (U11 of spec/93_implementation_defined.md). -/
inductive Status where
  /-- Code 0: the operation completed. -/
  | ok
  /-- Code 1: `op` is reserved (R41 of spec/30_encoding.md). -/
  | illegalOp
  /-- Code 2: the width operand of TPREFIX or TPMASK is not a valid width (R56 of spec/41_type_prefix_algebra.md). -/
  | domain
  deriving DecidableEq, Repr

/-- The two outputs, driven together (R18 of spec/10_state.md). -/
structure Output where
  y      : Word
  status : Status
  deriving DecidableEq, Repr

/-- The ports of the block. -/
structure State where
  /-- The commands the host has presented on `op`, `a`, `b` and the block has not sampled yet, in the host's order
  (R16, R17). They are the host's input, not storage of the block (DESIGN CHOICE, log 1). -/
  commands : List Command
  /-- The outputs of the last command that completed; none before the first one after reset (R101 of
  spec/70_reset_and_hazards.md). No operation reads them back (R20 of spec/10_state.md). -/
  outputs  : Option Output
  deriving DecidableEq, Repr

/-- R100, R101: reset sets no state. No command is presented (DESIGN CHOICE, log 2), and the outputs have no value until
a command completes (log 3). -/
def State.reset : State := { commands := [], outputs := none }

/-- Why the machine stops with a fault. -/
inductive Fault where
  /-- Raised by a READ of the outputs (`readOutputs`, `readY`, `readStatus`) before any command has completed: "that
  read faults" (R101). `step` never raises it. Safe: no value is made up. -/
  | outputsUnspecified
  deriving DecidableEq, Repr

/-- Why the model has no next state to give. -/
inductive Refusal where
  /-- An instruction whose meaning is not written; no instruction of this model is refused so. Safe. -/
  | notModelled (mnemonic : String)
  /-- Raised by `step` when the host has presented no command: the spec says what a command does, and nothing of a
  step without one (log 2). Safe: nothing is claimed of such a step. -/
  | noCommand
  /-- Raised by a host program (Machine/HostProgram.lean) whose position is outside its text: R44 gives only `halt` as
  an end (log 10). Safe. -/
  | offProgramEnd
  deriving DecidableEq, Repr

end Sys2Proof.Machine
end

