-- ==== Sys2Proof/Machine/Flags.lean ====
section
/-! DEFINITION. The block has no flags and no condition codes, and no operation writes one (R20 of spec/10_state.md).
What it drives beside the result is `status`, which is not a flag register; its two-bit codes stand here (R87 of
spec/60_exceptions.md). -/

namespace Sys2Proof.Machine

/-- `status[1:0]` of a status (R18, R87). -/
def statusCode : Status → BitVec 2
  | .ok => 0#2
  | .illegalOp => 1#2
  | .domain => 2#2

end Sys2Proof.Machine
end

