-- ==== Sys2Proof/Machine/Ops.lean ====
section
/-! DEFINITION. The operations every meaning is written with: driving the outputs, completing, rejecting; and the host's
side of the ports: presenting a command and reading the outputs.

Exceptions: the block raises no trap (R85), saves no state, changes no mode, has no vector and redirects nothing (R91 of
spec/60_exceptions.md), and there is no return (R92). Its one exceptional exit is `raise S` of R86, the operation
`raise` below. -/

namespace Sys2Proof.Machine

/-- `y <- v` and `status <- s`, driven together (R10, R18). -/
def drive (o : Output) (s : State) : State := { s with outputs := some o }

/-- An operation that ends with `status <- OK` (R86). -/
def complete (y : Word) (s : State) : Host.Outcome State Fault Refusal :=
  .next (drive { y := y, status := .ok } s)

/-- `raise S` (R86): `status <- S` and `y <- 0`, and nothing else changes. It is the next state of the rejected command
(log 4). -/
def raise (st : Status) (s : State) : Host.Outcome State Fault Refusal :=
  .next (drive { y := 0#64, status := st } s)

/-- The host presents a command as the one the block samples next (R17). -/
def present (c : Command) (s : State) : State := { s with commands := c :: s.commands }

/-- The command the block samples, with the ports after it, or none where the host has presented none. -/
def nextCommand (s : State) : Option (Command × State) :=
  match s.commands with
  | [] => none
  | c :: rest => some (c, { s with commands := rest })

/-- The host reads both outputs. Before any command has completed there is no value and the read faults (R101). -/
def readOutputs (s : State) : Except Fault Output :=
  match s.outputs with
  | some o => .ok o
  | none => .error .outputsUnspecified

/-- The host reads `y[63:0]`. -/
def readY (s : State) : Except Fault Word := (readOutputs s).map (·.y)

/-- The host reads `status[1:0]`. -/
def readStatus (s : State) : Except Fault (BitVec 2) := (readOutputs s).map (fun o => statusCode o.status)

end Sys2Proof.Machine
end

