-- ==== Sys2Proof/Machine/Classifier.lean ====
section
/-! DEFINITION. The NaN-boxing classifier (spec/40_classifier.md). It compares bit patterns and does no floating-point
arithmetic (R53). -/

namespace Sys2Proof.Machine

/-- R50: the word with its sign bit cleared exceeds `NAN_VALUE`, as an unsigned 64-bit compare. -/
def isBoxedWord (w : Word) : Bool := decide (nanValue < (w &&& boxedMask))

/-- ISBOXED (R50). -/
def execIsboxed (a _b : Word) (s : State) : Host.Outcome State Fault Refusal :=
  complete (boolWord (isBoxedWord a)) s

/-- ISDOUBLE (R51). -/
def execIsdouble (a _b : Word) (s : State) : Host.Outcome State Fault Refusal :=
  complete (boolWord (!isBoxedWord a)) s

end Sys2Proof.Machine
end

