-- ==== Sys2Proof/Machine/Algebra.lean ====
section
/-! DEFINITION. The type-prefix algebra (spec/41_type_prefix_algebra.md). -/

namespace Sys2Proof.Machine

/-- `VALID_VW` (R56): one of 0, 2, …, 48, with all 64 bits taking part in the comparison. -/
def validWidth (vw : Word) : Bool := decide (vw ≤ 48#64) && !vw.getLsbD 0

/-- `numbZeros` of a valid width (R55): the zeros between the NaN marker and the indicator. -/
def numbZeros (vw : Nat) : Nat := (51 - vw) / 2 - 1

/-- `fw`, the width of the type offset field (R55, R57; C12 of spec/90_conflicts.md). -/
def offsetWidth (vw : Nat) : Nat := numbZeros vw + 2

/-- The indicator bit of a width class: bit `50 - numbZeros` (R54, R55; C2). -/
def indicatorBit (vw : Nat) : Word := indicatorUnit >>> numbZeros vw

/-- The type offset in its field: `b mod 2^fw`, silently truncated, above the payload (R57). -/
def offsetField (vw : Nat) (off : Word) : Word := (off &&& ((1#64 <<< offsetWidth vw) - 1#64)) <<< vw

/-- `typePrefix(valueWidth, typeOffset)` on a valid width (R54). -/
def typePrefix (vw : Nat) (off : Word) : Word := nanValue ||| indicatorBit vw ||| offsetField vw off

/-- `typePrefixMaskForValueWidth(valueWidth)` on a valid width (R59). -/
def typePrefixMask (vw : Nat) : Word := allOnes <<< vw

/-- `indicatorBitPosition(word)` (R60): the highest set bit of bits 50..0 of a boxed word, 64 for a double. No
precondition is checked (R61). -/
def indicatorPosition (w : Word) : Nat :=
  if isBoxedWord w then 63 - clz64 (w &&& mantissaMask) else 64

/-- `typeIndicatorWidth(word)` as a mathematical integer (R62, R65). -/
def typeIndicatorWidth (w : Word) : Int := 2 * (51 - (indicatorPosition w : Int)) + 1

/-- `typePrefixWidth(word)` as a mathematical integer, by its formula (R63, R65; C4). -/
def typePrefixWidth (w : Word) : Int := 51 - (2 * (51 - (indicatorPosition w : Int)) + 1)

/-- TPREFIX (R54), rejecting an invalid width with DOMAIN (R56). -/
def execTprefix (a b : Word) (s : State) : Host.Outcome State Fault Refusal :=
  if validWidth a then complete (typePrefix a.toNat b) s else raise .domain s

/-- TPMASK (R59), rejecting an invalid width with DOMAIN (R56). -/
def execTpmask (a _b : Word) (s : State) : Host.Outcome State Fault Refusal :=
  if validWidth a then complete (typePrefixMask a.toNat) s else raise .domain s

/-- INDPOS (R60). -/
def execIndpos (a _b : Word) (s : State) : Host.Outcome State Fault Refusal :=
  complete (BitVec.ofNat 64 (indicatorPosition a)) s

/-- TIWIDTH (R62). -/
def execTiwidth (a _b : Word) (s : State) : Host.Outcome State Fault Refusal :=
  complete (wrap64 (typeIndicatorWidth a)) s

/-- TPWIDTH (R63). -/
def execTpwidth (a _b : Word) (s : State) : Host.Outcome State Fault Refusal :=
  complete (wrap64 (typePrefixWidth a)) s

end Sys2Proof.Machine
end

