-- ==== Sys2Proof/Machine/Codecs.lean ====
section
/-! DEFINITION. The payload codecs (spec/42_payload_codecs.md). A box operation overlays payload bits on a stencil; an
unbox operation copies them out and checks neither the type prefix nor the classification (R67, R83). All are total and
none raises a status. -/

namespace Sys2Proof.Machine

/-- `STENCIL_T | payload` (R67). -/
def boxWord (stencil payload : Word) : Word := stencil ||| payload

/-- BOXI32 (R68), with the int stencil (R84). -/
def execBoxi32 (a _b : Word) (s : State) : Host.Outcome State Fault Refusal :=
  complete (boxWord stencilI32 (zext64 (low32 a))) s

/-- UNBOXI32 (R69). -/
def execUnboxi32 (a _b : Word) (s : State) : Host.Outcome State Fault Refusal :=
  complete (sext64 (low32 a)) s

/-- BOXF32 (R70): the float's bit pattern, unchanged (R72). -/
def execBoxf32 (a _b : Word) (s : State) : Host.Outcome State Fault Refusal :=
  complete (boxWord stencilF32 (zext64 (low32 a))) s

/-- UNBOXF32 (R71): the float's bit pattern, zero-extended (D8 of spec/92_eei_decisions.md). -/
def execUnboxf32 (a _b : Word) (s : State) : Host.Outcome State Fault Refusal :=
  complete (zext64 (low32 a)) s

/-- BOXBOOL (R73): only bit 0 is read. -/
def execBoxbool (a _b : Word) (s : State) : Host.Outcome State Fault Refusal :=
  complete (boxWord stencilBool (boolWord (bit0 a))) s

/-- UNBOXBOOL (R75): only bit 0 is read. -/
def execUnboxbool (a _b : Word) (s : State) : Host.Outcome State Fault Refusal :=
  complete (boolWord (bit0 a)) s

/-- BOXPTR (R77): bits 63..48 of the address are dropped silently (R76). -/
def execBoxptr (a _b : Word) (s : State) : Host.Outcome State Fault Refusal :=
  complete (boxWord stencilPtr (low48 a)) s

/-- UNBOXPTR (R78): zero-extended (D23 of spec/92_eei_decisions.md). -/
def execUnboxptr (a _b : Word) (s : State) : Host.Outcome State Fault Refusal :=
  complete (low48 a) s

/-- BOXCPTR (R79). -/
def execBoxcptr (a _b : Word) (s : State) : Host.Outcome State Fault Refusal :=
  complete (boxWord stencilCptr (low48 a)) s

/-- UNBOXCPTR (R80): the same bits as UNBOXPTR. -/
def execUnboxcptr (a _b : Word) (s : State) : Host.Outcome State Fault Refusal :=
  complete (low48 a) s

end Sys2Proof.Machine
end

