-- ==== Sys2Proof/Machine/Dispatch.lean ====
section
/-! DEFINITION. One arm for each operation of R39 (spec/30_encoding.md). -/

namespace Sys2Proof.Machine

def exec (i : Instr) (s : State) : Host.Outcome State Fault Refusal :=
  match i with
  -- the classifier
  | .isboxed a b => Sys2Proof.Machine.execIsboxed a b s
  | .isdouble a b => Sys2Proof.Machine.execIsdouble a b s
  -- the type-prefix algebra
  | .tprefix a b => Sys2Proof.Machine.execTprefix a b s
  | .tpmask a b => Sys2Proof.Machine.execTpmask a b s
  | .indpos a b => Sys2Proof.Machine.execIndpos a b s
  | .tiwidth a b => Sys2Proof.Machine.execTiwidth a b s
  | .tpwidth a b => Sys2Proof.Machine.execTpwidth a b s
  -- the payload codecs
  | .boxi32 a b => Sys2Proof.Machine.execBoxi32 a b s
  | .unboxi32 a b => Sys2Proof.Machine.execUnboxi32 a b s
  | .boxf32 a b => Sys2Proof.Machine.execBoxf32 a b s
  | .unboxf32 a b => Sys2Proof.Machine.execUnboxf32 a b s
  | .boxbool a b => Sys2Proof.Machine.execBoxbool a b s
  | .unboxbool a b => Sys2Proof.Machine.execUnboxbool a b s
  | .boxptr a b => Sys2Proof.Machine.execBoxptr a b s
  | .unboxptr a b => Sys2Proof.Machine.execUnboxptr a b s
  | .boxcptr a b => Sys2Proof.Machine.execBoxcptr a b s
  | .unboxcptr a b => Sys2Proof.Machine.execUnboxcptr a b s

end Sys2Proof.Machine
end

