-- ==== Sys2Proof/Machine/Step.lean ====
section
/-! DEFINITION. One step: the block samples the next command the host has presented and evaluates it whole (R32 of
spec/20_memory.md, R107 of spec/70_reset_and_hazards.md). There is no program counter and no fetch (R17 of
spec/10_state.md). -/

namespace Sys2Proof.Machine

/-- The `op` value is checked first: a reserved one gives ILLEGAL_OP whatever `a` and `b` are (R41, R90); a legal one
runs its operation. -/
def step (s : State) : Host.Outcome State Fault Refusal :=
  match nextCommand s with
  | none => .refused .noCommand
  | some (c, s') =>
    match decode c with
    | .legal i => exec i s'
    | .reservedOp _ => raise .illegalOp s'

/-- `s` with the command of a table word presented as the one `step` samples next. -/
def State.withFetchWord (s : State) (nbits w : Nat) : State := present (Command.ofTableWord nbits w) s

end Sys2Proof.Machine
end

