-- ==== Sys2Proof/Safety.lean ====
section
/-! DEFINITION. The terms claims are stated in: the outputs of an outcome, and what every state of a run keeps. -/

namespace Sys2Proof.Machine

/-- The outputs that an outcome drives: those of its next state; none where the machine stops. -/
def drives : Host.Outcome State Fault Refusal → Option Output
  | .next s => s.outputs
  | .fault _ => none
  | .refused _ => none

/-- The result word of an outcome that completed with `status = OK`. A claim that must not rest on the `y` of a rejected
command (D4 of spec/92_eei_decisions.md, log 4) is stated with this. -/
def resultOf (r : Host.Outcome State Fault Refusal) : Option Word :=
  match drives r with
  | some ⟨y, .ok⟩ => some y
  | _ => none

/-- `(y, status) = eval(op, a, b)` (R11 of spec/00_scope.md, R19 of spec/10_state.md), read off the machine: what one
step drives when the host presents `c` right after reset. -/
def eval (c : Command) : Option Output := drives (step (present c State.reset))

/-- R86, R87: outputs, once driven, carry `y = 0` beside every status other than OK. -/
def outputsLegal (s : State) : Bool :=
  match s.outputs with
  | none => true
  | some o => decide (o.status = .ok) || decide (o.y = 0#64)

/-- `i` completes in `s` with result `y`: exec answers the next state in which `y` and `status = OK` are driven and
nothing else differs from `s`. -/
def Completes (i : Instr) (s : State) (y : Word) : Prop :=
  exec i s = .next { s with outputs := some { y := y, status := .ok } }

/-- `i` is rejected in `s` with status `st`: exec answers the next state in which `y = 0` and that status are driven and
nothing else differs from `s` (R86). -/
def Rejects (i : Instr) (s : State) (st : Status) : Prop :=
  exec i s = .next { s with outputs := some { y := 0#64, status := st } }

/-- `VALID_VW` as R56 words it: the whole 64-bit value is one of 0, 2, 4, …, 48. -/
def InWidthDomain (vw : Word) : Prop := ∃ k : Nat, k ≤ 24 ∧ vw.toNat = 2 * k

/-- A boxed word as R46 words it: bits 62..51 all ones and bits 50..0 not zero. -/
def HasBoxedPattern (w : Word) : Prop := w.extractLsb' 51 12 = 0xFFF#12 ∧ w.extractLsb' 0 51 ≠ 0#51

/-- What R82 and R23 say of one codec: `box` boxes under `stencil`, which is the type prefix of width `vw` and offset
`off`, with its indicator at `p`. -/
def BoxesUnder (box : Word → Word → Instr) (vw off stencil : Word) (p : Nat) : Prop :=
  ∀ (a b : Word) (s : State), ∃ y m : Word,
    Completes (box a b) s y ∧ Completes (.isboxed y b) s 1#64 ∧ y.getLsbD 63 = false ∧
    Completes (.tpmask vw b) s m ∧ y &&& m = stencil ∧ Completes (.indpos y b) s (BitVec.ofNat 64 p) ∧
    Completes (.tprefix vw off) s stencil ∧ Completes (.indpos stencil b) s (BitVec.ofNat 64 p)

end Sys2Proof.Machine
end

