-- ==== Sys2Proof/Machine/HostProgram.lean ====
section
/-! DEFINITION. The host's notation for programs (R43, R44 of spec/30_encoding.md). None of it is part of the block:
the host values are "the host's storage, not the block's", and the pseudo-operations "are not commands to the block and
have no `op` encoding". It drives the block through its ports alone: present, `step`, read. -/

namespace Sys2Proof.Machine

/-- A host value that a branch may test: one of `t0` to `t15`, or `st` (R44: "`st` may be tested like any other"). -/
inductive HostValue where
  | t (i : Fin 16)
  | st
  deriving DecidableEq, Repr

/-- A line of a host program. A label is the position of its line (log 10). -/
inductive HostInstr where
  /-- `MNEMONIC td, ta`: a one-operand command, given by its `op` value; `b` is driven as 0 (R43). -/
  | command (op : OpCode) (td ta : Fin 16)
  /-- `TPREFIX td, ta, tb`: the one two-operand command (R43). -/
  | tprefix (td ta tb : Fin 16)
  | li (td : Fin 16) (imm : Int)
  | and (td ta tb : Fin 16)
  | or (td ta tb : Fin 16)
  | xor (td ta tb : Fin 16)
  | addi (td ta : Fin 16) (imm : Int)
  | beqz (v : HostValue) (label : Nat)
  | bnez (v : HostValue) (label : Nat)
  | halt
  deriving DecidableEq, Repr

/-- The host and the block it drives. -/
structure HostState where
  t      : Vector Word 16
  st     : Word
  pc     : Nat
  halted : Bool
  block  : State
  deriving DecidableEq, Repr

/-- R44: every host value is 0 at the start of a program unless its start state says otherwise. -/
def hostReset : HostState :=
  { t := Vector.replicate 16 0#64, st := 0#64, pc := 0, halted := false, block := State.reset }

/-- The value of `t_i` or `st`. -/
def hostRead (h : HostState) : HostValue → Word
  | .t i => h.t[i]
  | .st => h.st

/-- Sets `td` and goes on with the next line. -/
def hostSet (td : Fin 16) (v : Word) (h : HostState) : HostState := { h with t := h.t.set td v, pc := h.pc + 1 }

/-- Goes on at `label` or with the next line. -/
def hostBranch (taken : Bool) (label : Nat) (h : HostState) : HostState :=
  { h with pc := if taken then label else h.pc + 1 }

/-- A command to the block: the host presents it, the block steps, and the host takes `y` into `td` and `status` into
`st` (R43). -/
def hostCommand (c : Command) (td : Fin 16) (h : HostState) : Host.Outcome HostState Fault Refusal :=
  match step (present c h.block) with
  | .next blk =>
    match readOutputs blk with
    | .ok o => .next (hostSet td o.y { h with st := (statusCode o.status).zeroExtend 64, block := blk })
    | .error f => .fault f
  | .fault f => .fault f
  | .refused r => .refused r

/-- One line (R43, R44). -/
def hostExec (i : HostInstr) (h : HostState) : Host.Outcome HostState Fault Refusal :=
  match i with
  | .command op td ta => hostCommand ⟨op, h.t[ta], 0#64⟩ td h
  | .tprefix td ta tb => hostCommand ⟨0x02#5, h.t[ta], h.t[tb]⟩ td h
  | .li td imm => .next (hostSet td (BitVec.ofInt 64 imm) h)
  | .and td ta tb => .next (hostSet td (h.t[ta] &&& h.t[tb]) h)
  | .or td ta tb => .next (hostSet td (h.t[ta] ||| h.t[tb]) h)
  | .xor td ta tb => .next (hostSet td (h.t[ta] ^^^ h.t[tb]) h)
  | .addi td ta imm => .next (hostSet td (h.t[ta] + BitVec.ofInt 64 imm) h)
  | .beqz v label => .next (hostBranch (hostRead h v == 0#64) label h)
  | .bnez v label => .next (hostBranch (hostRead h v != 0#64) label h)
  | .halt => .next { h with halted := true }

/-- One step of a host program: the line it stands at, unless `halt` has ended it. -/
def hostStep (lines : List HostInstr) (h : HostState) : Host.Outcome HostState Fault Refusal :=
  if h.halted then .next h
  else
    match lines[h.pc]? with
    | some i => hostExec i h
    | none => .refused .offProgramEnd

end Sys2Proof.Machine
end

