-- ==== Sys2Proof/Machine/Pipeline.lean ====
section
/-! DEFINITION. The block cycle by cycle, as an implementation of any latency runs it (R101, R105, R106, R107 of
spec/70_reset_and_hazards.md). `step` evaluates a command as one step; here a command issued in one cycle delivers its
result `PIPELINE_LATENCY` cycles later, in order. Latency 0 is the combinational implementation. -/

namespace Sys2Proof.Machine

/-- The commands in flight, the youngest first, one place for each cycle of latency; none where no command was issued
in that cycle. Plain data, and no operation reads it (R25 of spec/10_state.md). -/
structure Pipe where
  stages : List (Option Command)
  deriving DecidableEq, Repr

/-- After reset nothing is in flight. -/
def pipeOfLatency (latency : Nat) : Pipe := { stages := List.replicate latency none }

/-- The block's own pipeline, of the open latency (D17 of spec/92_eei_decisions.md). -/
def pipeReset : Pipe := pipeOfLatency Config.pipelineLatency

/-- One clock cycle: the inputs are sampled once if a command is issued (R107), every command in flight moves on, and the
one that leaves delivers `y` and `status` together (R105). None: no result comes out in this cycle, and what the ports
carry then is unspecified (R101). -/
def pipeCycle (issued : Option Command) (p : Pipe) : Option Output × Pipe :=
  match p.stages with
  | [] => (issued.bind eval, p)
  | c :: rest =>
    (((c :: rest).getLast (List.cons_ne_nil c rest)).bind eval, { stages := issued :: (c :: rest).dropLast })

/-- The results of successive cycles, and the pipeline after them. -/
def pipeRun : List (Option Command) → Pipe → List (Option Output) × Pipe
  | [], p => ([], p)
  | issued :: later, p =>
    let (out, p') := pipeCycle issued p
    let (outs, q) := pipeRun later p'
    (out :: outs, q)

end Sys2Proof.Machine
end

