-- ==== Sys2Proof/Certificates/Slice0/Obligations.lean ====
section
/-! DEFINITION. The statements for the provers. Each docstring names the rules of spec/ it formalises. -/

open Sys2Proof Sys2Proof.Machine

/-! ## Encoding and decoding -/

/-- R39: each `op` value of the table decodes to its operation, with the operands of the command. -/
def Obligations.DecodeFollowsTheOpMap : Prop :=
  ∀ a b : Word,
    decode ⟨0x00#5, a, b⟩ = .legal (.isboxed a b) ∧ decode ⟨0x01#5, a, b⟩ = .legal (.isdouble a b) ∧
    decode ⟨0x02#5, a, b⟩ = .legal (.tprefix a b) ∧ decode ⟨0x03#5, a, b⟩ = .legal (.tpmask a b) ∧
    decode ⟨0x04#5, a, b⟩ = .legal (.indpos a b) ∧ decode ⟨0x05#5, a, b⟩ = .legal (.tiwidth a b) ∧
    decode ⟨0x06#5, a, b⟩ = .legal (.tpwidth a b) ∧ decode ⟨0x08#5, a, b⟩ = .legal (.boxi32 a b) ∧
    decode ⟨0x09#5, a, b⟩ = .legal (.unboxi32 a b) ∧ decode ⟨0x0A#5, a, b⟩ = .legal (.boxf32 a b) ∧
    decode ⟨0x0B#5, a, b⟩ = .legal (.unboxf32 a b) ∧ decode ⟨0x0C#5, a, b⟩ = .legal (.boxbool a b) ∧
    decode ⟨0x0D#5, a, b⟩ = .legal (.unboxbool a b) ∧ decode ⟨0x0E#5, a, b⟩ = .legal (.boxptr a b) ∧
    decode ⟨0x0F#5, a, b⟩ = .legal (.unboxptr a b) ∧ decode ⟨0x10#5, a, b⟩ = .legal (.boxcptr a b) ∧
    decode ⟨0x11#5, a, b⟩ = .legal (.unboxcptr a b)

/-- R38, R39 over all operations and all operand values, well-formed or not: decoding an encoded instruction gives it
back. The flat numbering of the 133 bits is the model's (log 5). -/
def Obligations.DecodeOfEncodeIsTheInstruction : Prop :=
  ∀ i : Instr, decodeBits (encode i) = .legal i

/-- Each command has one meaning and each instruction one command: a 133-bit command that decodes to `i` is the encoding
of `i` (R38, R42; the flat numbering is the model's, log 5). -/
def Obligations.OnlyTheEncodingDecodesToTheInstruction : Prop :=
  ∀ (w : BitVec 133) (i : Instr), decodeBits w = .legal i → encode i = w

/-- R41: exactly 0x07 and 0x12 to 0x1F are reserved, and a reserved command performs no operation: ILLEGAL_OP and
`y = 0`, whatever `a` and `b` are. -/
def Obligations.ReservedOpsAreExactlyThese : Prop :=
  ∀ (c : Command) (rest : List Command) (o : Option Output),
    (decode c = .reservedOp c.op ↔ (c.op = 0x07#5 ∨ 0x12#5 ≤ c.op)) ∧
    (c.op = 0x07#5 ∨ 0x12#5 ≤ c.op →
      step { commands := c :: rest, outputs := o } =
        .next { commands := rest, outputs := some { y := 0#64, status := .illegalOp } })

/-! ## The step -/

/-- Where the next presented command decodes to `i`, a step is exec of `i` at the state with that command taken off the
host's list. The list is the model's (log 1). -/
def Obligations.StepRunsTheDecodedInstruction : Prop :=
  ∀ (s : State) (c : Command) (rest : List Command) (i : Instr),
    s.commands = c :: rest → decode c = .legal i → step s = exec i { s with commands := rest }

/-- The host's placement of a table word: where the decoder reads `i` from the word, the next step runs exactly `i` and
leaves the ports as exec of `i` at `s` leaves them (log 5, log 11). -/
def Obligations.PlacedTableWordRunsNext : Prop :=
  ∀ (s : State) (nbits w : Nat) (i : Instr),
    decodeTableWord nbits w = some i → step (s.withFetchWord nbits w) = exec i s

/-- With no command presented the model refuses the step under that name. This is the model's choice (log 2): the spec
says nothing of a step without a command. -/
def Obligations.StepWithoutCommandIsRefused : Prop :=
  ∀ s : State, step s = .refused .noCommand ↔ s.commands = []

/-- R19, R11, R32: the outputs are a total function of the current command alone, and every command completes. -/
def Obligations.OutputsAreAFunctionOfTheCommand : Prop :=
  ∃ ev : Command → Output, ∀ (s : State) (c : Command) (rest : List Command),
    s.commands = c :: rest → step s = .next { commands := rest, outputs := some (ev c) }

/-- Every operation answers a next state in every state, for every operand; it changes the outputs alone, and what it
drives does not depend on the state (R11, R86: "nothing else changes"). -/
def Obligations.EveryOperationCompletesAndChangesOutputsOnly : Prop :=
  ∀ i : Instr, ∃ o : Output, ∀ s : State, exec i s = .next { s with outputs := some o }

/-- R87, R90, R56: the status of a command, exactly. ILLEGAL_OP (code 1) for a reserved `op` whatever `a` is; DOMAIN
(code 2) for TPREFIX and TPMASK on a width out of the domain; OK (code 0) in every other case; and `y = 0` beside every
code but 0. -/
def Obligations.StatusOfACommandExactly : Prop :=
  ∀ (s t : State) (c : Command) (rest : List Command), s.commands = c :: rest → step s = .next t →
    (readStatus t = .ok 1#2 ↔ (c.op = 0x07#5 ∨ 0x12#5 ≤ c.op)) ∧
    (readStatus t = .ok 2#2 ↔ ((c.op = 0x02#5 ∨ c.op = 0x03#5) ∧ ¬ InWidthDomain c.a)) ∧
    (readStatus t = .ok 0#2 ↔
      (¬ (c.op = 0x07#5 ∨ 0x12#5 ≤ c.op) ∧ ¬ ((c.op = 0x02#5 ∨ c.op = 0x03#5) ∧ ¬ InWidthDomain c.a))) ∧
    (readStatus t = .ok 0#2 ∨ readY t = .ok 0#64)

/-- Bits that R40 does not list never change the outcome: `b` for every operation but TPREFIX, and the high bits of `a`
for the codecs. -/
def Obligations.IgnoredOperandBitsNeverMatter : Prop :=
  (∀ (a b b' : Word) (s : State),
    exec (.isboxed a b) s = exec (.isboxed a b') s ∧ exec (.isdouble a b) s = exec (.isdouble a b') s ∧
    exec (.tpmask a b) s = exec (.tpmask a b') s ∧ exec (.indpos a b) s = exec (.indpos a b') s ∧
    exec (.tiwidth a b) s = exec (.tiwidth a b') s ∧ exec (.tpwidth a b) s = exec (.tpwidth a b') s) ∧
  (∀ (a a' b b' : Word) (s : State), (∀ n, n < 32 → a.getLsbD n = a'.getLsbD n) →
    exec (.boxi32 a b) s = exec (.boxi32 a' b') s ∧ exec (.unboxi32 a b) s = exec (.unboxi32 a' b') s ∧
    exec (.boxf32 a b) s = exec (.boxf32 a' b') s ∧ exec (.unboxf32 a b) s = exec (.unboxf32 a' b') s) ∧
  (∀ (a a' b b' : Word) (s : State), a.getLsbD 0 = a'.getLsbD 0 →
    exec (.boxbool a b) s = exec (.boxbool a' b') s ∧ exec (.unboxbool a b) s = exec (.unboxbool a' b') s) ∧
  (∀ (a a' b b' : Word) (s : State), (∀ n, n < 48 → a.getLsbD n = a'.getLsbD n) →
    exec (.boxptr a b) s = exec (.boxptr a' b') s ∧ exec (.unboxptr a b) s = exec (.unboxptr a' b') s ∧
    exec (.boxcptr a b) s = exec (.boxcptr a' b') s ∧ exec (.unboxcptr a b) s = exec (.unboxcptr a' b') s)

/-! ## Reset, invariants and runs -/

/-- R100, R101: after reset a read of the outputs faults, and the first command gives the same outputs as it gives in
any other state. -/
def Obligations.AfterResetNothingToReadUntilTheFirstCommand : Prop :=
  readOutputs State.reset = .error .outputsUnspecified ∧ readY State.reset = .error .outputsUnspecified ∧
  readStatus State.reset = .error .outputsUnspecified ∧
  ∀ (c : Command) (s : State), ∃ o : Output,
    step (present c State.reset) = .next { State.reset with outputs := some o } ∧
    step (present c s) = .next { s with outputs := some o } ∧
    readOutputs { State.reset with outputs := some o } = .ok o

/-- The invariant of the next statement holds after reset. -/
def Obligations.ResetOutputsAreLegal : Prop :=
  outputsLegal State.reset = true

/-- R86, R87: every step keeps it that outputs with a status other than OK carry `y = 0`. -/
def Obligations.EveryStepKeepsOutputsLegal : Prop :=
  ∀ s t : State, outputsLegal s = true → step s = .next t → outputsLegal t = true

/-- Any run of commands goes through, and the outputs at its end are those of its last command, as if none had gone
before it, rejected ones among them (R92, R34, R105). -/
def Obligations.RunDeliversTheLastCommandWhateverWentBefore : Prop :=
  ∀ (before : List Command) (c : Command) (rest : List Command) (o : Option Output),
    ∃ out : Output, eval c = some out ∧
      Host.Core.run core (before.length + 1) { commands := before ++ c :: rest, outputs := o } =
        .next { commands := rest, outputs := some out }

/-- R105, R101: in an implementation of any latency L, the result of the command issued in cycle n comes out in cycle
n + L, it is `eval` of that command's own inputs, and before cycle L nothing comes out. What the ports carry in a cycle
without a result is left out of the model (log 7). -/
def Obligations.PipelineDeliversInOrderAfterItsLatency : Prop :=
  ∀ (latency : Nat) (issued : List (Option Command)),
    (pipeRun issued (pipeOfLatency latency)).1.length = issued.length ∧
    ∀ n, n < issued.length →
      (n < latency → (pipeRun issued (pipeOfLatency latency)).1[n]? = some none) ∧
      (latency ≤ n → (pipeRun issued (pipeOfLatency latency)).1[n]? =
        (issued[n - latency]?).map (fun c => c.bind eval))

/-- R106: the latency stays what it is, whatever operations run: a pipeline of latency L after reset still has L stages
after any cycles. -/
def Obligations.PipelineKeepsItsLatency : Prop :=
  ∀ (issued : List (Option Command)) (p : Pipe), (pipeRun issued p).2.stages.length = p.stages.length

/-! ## The classifier -/

/-- R50: the result of ISBOXED on every word, with its corner cases. -/
def Obligations.IsboxedResult : Prop :=
  ∀ (a b : Word) (s : State),
    Completes (.isboxed a b) s (if 0x7FF8000000000000#64 < (a &&& 0x7FFFFFFFFFFFFFFF#64) then 1#64 else 0#64) ∧
    exec (.isboxed (a ^^^ 0x8000000000000000#64) b) s = exec (.isboxed a b) s ∧
    Completes (.isboxed 0x7FF8000000000000#64 b) s 0#64 ∧
    Completes (.isboxed 0xFFF8000000000000#64 b) s 0#64 ∧
    (HasBoxedPattern a → Completes (.isboxed a b) s 1#64)

/-- R51: the result of ISDOUBLE on every word is 1 minus that of ISBOXED, with its corner cases. -/
def Obligations.IsdoubleResult : Prop :=
  ∀ (a b : Word) (s : State),
    Completes (.isdouble a b) s (if 0x7FF8000000000000#64 < (a &&& 0x7FFFFFFFFFFFFFFF#64) then 0#64 else 1#64) ∧
    (∃ d x : Word, Completes (.isdouble a b) s d ∧ Completes (.isboxed a b) s x ∧ d + x = 1#64) ∧
    Completes (.isdouble 0x0000000000000000#64 b) s 1#64 ∧
    Completes (.isdouble 0x8000000000000000#64 b) s 1#64 ∧
    Completes (.isdouble 0x7FF0000000000000#64 b) s 1#64 ∧
    Completes (.isdouble 0x7FF8000000000000#64 b) s 1#64 ∧
    Completes (.isdouble 0xFFF8000000000000#64 b) s 1#64 ∧
    Completes (.isdouble 0x3FF0000000000000#64 b) s 1#64

/-- R46: a word is boxed exactly when bits 62..51 are all ones and bits 50..0 are not zero; every other word is a
double, the only doubles with bits 62..51 all ones are two words, and 2·(2^51 − 1) words are boxed. -/
def Obligations.BoxedWordsCharacterisedAndCounted : Prop :=
  (∀ (w b : Word) (s : State),
    (Completes (.isboxed w b) s 1#64 ↔ HasBoxedPattern w) ∧
    (Completes (.isdouble w b) s 1#64 ↔ ¬ HasBoxedPattern w) ∧
    (w.extractLsb' 51 12 = 0xFFF#12 →
      (Completes (.isdouble w b) s 1#64 ↔ (w = 0x7FF8000000000000#64 ∨ w = 0xFFF8000000000000#64)))) ∧
  ∀ (b : Word) (s : State), Nat.card (Subtype fun w : Word => Completes (.isboxed w b) s 1#64) = 2 * (2 ^ 51 - 1)

/-- R52: the classifier's verdict on each kind of pattern, with bit 63 either value. -/
def Obligations.ClassifierVerdictsOnIeeePatterns : Prop :=
  ∀ (w b : Word) (s : State),
    let m := w &&& 0x7FFFFFFFFFFFFFFF#64
    (w.extractLsb' 52 11 ≠ 0x7FF#11 → Completes (.isdouble w b) s 1#64 ∧ Completes (.isboxed w b) s 0#64) ∧
    (m = 0x7FF0000000000000#64 → Completes (.isdouble w b) s 1#64 ∧ Completes (.isboxed w b) s 0#64) ∧
    (0x7FF0000000000001#64 ≤ m ∧ m ≤ 0x7FF7FFFFFFFFFFFF#64 →
      Completes (.isdouble w b) s 1#64 ∧ Completes (.isboxed w b) s 0#64) ∧
    (m = 0x7FF8000000000000#64 → Completes (.isdouble w b) s 1#64 ∧ Completes (.isboxed w b) s 0#64) ∧
    (0x7FF8000000000001#64 ≤ m ∧ m ≤ 0x7FFFFFFFFFFFFFFF#64 →
      Completes (.isdouble w b) s 0#64 ∧ Completes (.isboxed w b) s 1#64)

/-! ## The type-prefix algebra -/

/-- R54, R56: TPREFIX on a valid width completes with the three fields ORed, and on any other `a` is rejected with
DOMAIN; the sign bit and the payload bits of its result are 0. -/
def Obligations.TprefixResult : Prop :=
  ∀ (a b : Word) (s : State),
    (InWidthDomain a →
      ∃ y : Word, Completes (.tprefix a b) s y ∧
        y = (0x7FF8000000000000#64 ||| (0x0004000000000000#64 >>> ((51 - a.toNat) / 2 - 1)) |||
          ((b &&& ((1#64 <<< ((51 - a.toNat) / 2 - 1 + 2)) - 1#64)) <<< a.toNat)) ∧
        y.getLsbD 63 = false ∧ (∀ n, n < a.toNat → y.getLsbD n = false)) ∧
    (¬ InWidthDomain a → Rejects (.tprefix a b) s .domain) ∧
    Completes (.tprefix 32#64 8#64) s 0x7FF8040800000000#64

/-- R56: the width domain, with all 64 bits of `a` taking part: TPREFIX and TPMASK raise DOMAIN exactly outside it. -/
def Obligations.WidthDomainIsExact : Prop :=
  ∀ (a b : Word) (s : State),
    (InWidthDomain a ↔ (a ≤ 48#64 ∧ a.getLsbD 0 = false)) ∧
    (Rejects (.tprefix a b) s .domain ↔ ¬ InWidthDomain a) ∧
    (Rejects (.tpmask a b) s .domain ↔ ¬ InWidthDomain a) ∧
    ((∃ y : Word, Completes (.tprefix a b) s y) ↔ InWidthDomain a) ∧
    ((∃ y : Word, Completes (.tpmask a b) s y) ↔ InWidthDomain a)

/-- R45, R55: every bit of a word built from a TPREFIX result and a payload, field by field, and the field sizes. -/
def Obligations.BuiltWordFieldByField : Prop :=
  ∀ (vw off x y : Word) (s : State),
    InWidthDomain vw → x.toNat < 2 ^ vw.toNat → Completes (.tprefix vw off) s y →
    let v := vw.toNat
    let zeros := (51 - v) / 2 - 1
    let p := 50 - zeros
    (∀ n, n < 64 → (y ||| x).getLsbD n =
      if n = 63 then false
      else if 51 ≤ n then true
      else if p + 1 ≤ n then false
      else if n = p then true
      else if v ≤ n then off.getLsbD (n - v)
      else x.getLsbD n) ∧
    1 + 12 + zeros + 1 + (zeros + 2) + v = 64 ∧
    (51 - v) % 2 = 1 ∧ zeros = (48 - v) / 2 ∧ p = 26 + v / 2 ∧ zeros + 2 = (52 - v) / 2 ∧ p - v = zeros + 2

/-- R57: TPREFIX stores the offset modulo 2^fw in bits p−1..vw, and drops its high bits without any status. -/
def Obligations.TypeOffsetTruncatesSilently : Prop :=
  ∀ (vw off y : Word) (s : State), InWidthDomain vw → Completes (.tprefix vw off) s y →
    let fw := (51 - vw.toNat) / 2 - 1 + 2
    y.toNat / 2 ^ vw.toNat % 2 ^ fw = off.toNat % 2 ^ fw ∧
    (∀ off' : Word, off'.toNat % 2 ^ fw = off.toNat % 2 ^ fw → Completes (.tprefix vw off') s y)

/-- R59: the result of TPMASK, bit by bit, and its rejection. -/
def Obligations.TpmaskResult : Prop :=
  ∀ (a b : Word) (s : State),
    (InWidthDomain a →
      Completes (.tpmask a b) s (0xFFFFFFFFFFFFFFFF#64 <<< a.toNat) ∧
      ∀ y, Completes (.tpmask a b) s y → ∀ n, n < 64 → y.getLsbD n = decide (a.toNat ≤ n)) ∧
    (¬ InWidthDomain a → Rejects (.tpmask a b) s .domain) ∧
    Completes (.tpmask 0#64 b) s 0xFFFFFFFFFFFFFFFF#64 ∧
    Completes (.tpmask 48#64 b) s 0xFFFF000000000000#64 ∧
    Completes (.tpmask 32#64 b) s 0xFFFFFFFF00000000#64

/-- R60, R61: INDPOS gives the index of the highest set bit of bits 50..0 of a boxed word, whoever built it, and 64 for
a double. -/
def Obligations.IndposResult : Prop :=
  ∀ (a b : Word) (s : State),
    (HasBoxedPattern a → ∃ p : Nat, p ≤ 50 ∧ Completes (.indpos a b) s (BitVec.ofNat 64 p) ∧
      a.getLsbD p = true ∧ ∀ n, p < n → n ≤ 50 → a.getLsbD n = false) ∧
    (¬ HasBoxedPattern a → Completes (.indpos a b) s 64#64) ∧
    (∀ a' : Word, HasBoxedPattern a → HasBoxedPattern a' → (∀ n, n ≤ 50 → a.getLsbD n = a'.getLsbD n) →
      exec (.indpos a b) s = exec (.indpos a' b) s) ∧
    (∀ n, n ≤ 50 → Completes (.indpos (0x7FF8000000000000#64 ||| (1#64 <<< n)) b) s (BitVec.ofNat 64 n)) ∧
    Completes (.indpos (0x7FF8000000000000#64 ||| (1#64 <<< 51)) b) s 64#64 ∧
    Completes (.indpos 0x7FFC000000000000#64 b) s 50#64 ∧ Completes (.indpos 0x7FF84008FFFFFFFF#64 b) s 46#64 ∧
    Completes (.indpos 0x7FF80000FFFFFFFF#64 b) s 31#64

/-- R62: TIWIDTH is `wrap_64` of 2·(51 − p) + 1 with p the result of INDPOS; 3..103 for a boxed word, −25 for a double,
and 51 − vw for a word built from class vw. -/
def Obligations.TiwidthResult : Prop :=
  ∀ (a b : Word) (s : State),
    (∃ p : Nat, Completes (.indpos a b) s (BitVec.ofNat 64 p) ∧ (p ≤ 50 ∨ p = 64) ∧
      Completes (.tiwidth a b) s (BitVec.ofInt 64 (2 * (51 - (p : Int)) + 1))) ∧
    (HasBoxedPattern a → ∃ y : Word, Completes (.tiwidth a b) s y ∧ 3 ≤ y.toNat ∧ y.toNat ≤ 103) ∧
    (¬ HasBoxedPattern a → Completes (.tiwidth a b) s 0xFFFFFFFFFFFFFFE7#64) ∧
    (∀ vw off x y : Word, InWidthDomain vw → x.toNat < 2 ^ vw.toNat → Completes (.tprefix vw off) s y →
      Completes (.tiwidth (y ||| x) b) s (BitVec.ofNat 64 (51 - vw.toNat))) ∧
    Completes (.tiwidth 0x7FF8040000000000#64 b) s 19#64

/-- R63: TPWIDTH is `wrap_64` of 51 − (2·(51 − p) + 1) with p the result of INDPOS; −52..48 for a boxed word, negative
exactly for p in 0..25, 76 for a double, and vw for a word built from class vw. -/
def Obligations.TpwidthResult : Prop :=
  ∀ (a b : Word) (s : State),
    (∃ p : Nat, Completes (.indpos a b) s (BitVec.ofNat 64 p) ∧ (p ≤ 50 ∨ p = 64) ∧
      Completes (.tpwidth a b) s (BitVec.ofInt 64 (51 - (2 * (51 - (p : Int)) + 1))) ∧
      BitVec.ofInt 64 (51 - (2 * (51 - (p : Int)) + 1)) = BitVec.ofInt 64 (2 * (p : Int) - 52)) ∧
    (HasBoxedPattern a → ∃ (p : Nat) (y : Word), Completes (.indpos a b) s (BitVec.ofNat 64 p) ∧ p ≤ 50 ∧
      Completes (.tpwidth a b) s y ∧ -52 ≤ y.toInt ∧ y.toInt ≤ 48 ∧ (y.toInt < 0 ↔ p ≤ 25)) ∧
    (¬ HasBoxedPattern a → Completes (.tpwidth a b) s 76#64) ∧
    (∀ vw off x y : Word, InWidthDomain vw → x.toNat < 2 ^ vw.toNat → Completes (.tprefix vw off) s y →
      Completes (.tpwidth (y ||| x) b) s vw) ∧
    Completes (.tpwidth 0x7FFD00000000BEEF#64 b) s 48#64

/-- R64: the inverse laws. Of a word built from any valid width, any offset and any payload, the block gives back its
class, its widths, its type prefix and its offset. -/
def Obligations.AlgebraInvertsTprefix : Prop :=
  ∀ (vw off x : Word) (s : State), InWidthDomain vw → x.toNat < 2 ^ vw.toNat →
    ∃ y m : Word, Completes (.tprefix vw off) s y ∧ Completes (.tpmask vw 0#64) s m ∧
      let w := y ||| x
      let fw := (51 - vw.toNat) / 2 - 1 + 2
      Completes (.isboxed w 0#64) s 1#64 ∧
      Completes (.indpos w 0#64) s (BitVec.ofNat 64 (26 + vw.toNat / 2)) ∧
      Completes (.tiwidth w 0#64) s (BitVec.ofNat 64 (51 - vw.toNat)) ∧
      Completes (.tpwidth w 0#64) s vw ∧
      w &&& m = y ∧
      ((w >>> vw.toNat) &&& ((1#64 <<< fw) - 1#64)).toNat = off.toNat % 2 ^ fw

/-- R47: two words built for different valid widths have different indicator positions, each the highest set bit of bits
50..0, and so are different words. -/
def Obligations.WidthClassesNeverCollide : Prop :=
  ∀ (vw vw' off off' x x' y y' : Word) (s : State),
    InWidthDomain vw → InWidthDomain vw' → vw ≠ vw' → x.toNat < 2 ^ vw.toNat → x'.toNat < 2 ^ vw'.toNat →
    Completes (.tprefix vw off) s y → Completes (.tprefix vw' off') s y' →
    ∃ p p' : Nat, p ≠ p' ∧ p ≤ 50 ∧ p' ≤ 50 ∧
      Completes (.indpos (y ||| x) 0#64) s (BitVec.ofNat 64 p) ∧
      Completes (.indpos (y' ||| x') 0#64) s (BitVec.ofNat 64 p') ∧
      (y ||| x).getLsbD p = true ∧ (∀ n, p < n → n ≤ 50 → (y ||| x).getLsbD n = false) ∧
      (y' ||| x').getLsbD p' = true ∧ (∀ n, p' < n → n ≤ 50 → (y' ||| x').getLsbD n = false) ∧
      y ||| x ≠ y' ||| x'

/-- R65: no shift of a valid width reaches 64, the three fields of a type prefix are disjoint (so ORing them is adding
them, without a carry), and the integers of TIWIDTH and TPWIDTH stay in −52..103. -/
def Obligations.AlgebraArithmeticStaysInRange : Prop :=
  (∀ vw off : Word, InWidthDomain vw →
    numbZeros vw.toNat ≤ 24 ∧ 2 ≤ offsetWidth vw.toNat ∧ offsetWidth vw.toNat ≤ 26 ∧ vw.toNat ≤ 48 ∧
    (typePrefix vw.toNat off).toNat =
      nanValue.toNat + (indicatorBit vw.toNat).toNat + (offsetField vw.toNat off).toNat) ∧
  (∀ w : Word, -52 ≤ typeIndicatorWidth w ∧ typeIndicatorWidth w ≤ 103 ∧
    -52 ≤ typePrefixWidth w ∧ typePrefixWidth w ≤ 103) ∧
  (∀ x : Word, clz64 x ≤ 64 ∧ (x ≠ 0#64 → clz64 x ≤ 63 ∧ x.getLsbD (63 - clz64 x) = true ∧
    ∀ n, 63 - clz64 x < n → x.getLsbD n = false))

/-! ## The payload codecs -/

/-- R68, R69, R84: the int codec on every operand, with its corner cases; boxing never uses the float stencil. -/
def Obligations.IntCodecResults : Prop :=
  ∀ (a b : Word) (s : State),
    (∃ y : Word, Completes (.boxi32 a b) s y ∧
      y = (0x7FF8040000000000#64 ||| (a.extractLsb' 0 32).zeroExtend 64) ∧
      y.extractLsb' 0 32 = a.extractLsb' 0 32 ∧ y.extractLsb' 32 32 = 0x7FF80400#32) ∧
    Completes (.boxi32 0x2A#64 b) s 0x7FF804000000002A#64 ∧
    Completes (.boxi32 0xFFFFFFFFFFFFFFFF#64 b) s 0x7FF80400FFFFFFFF#64 ∧
    Completes (.boxi32 0#64 b) s 0x7FF8040000000000#64 ∧
    (∃ y : Word, Completes (.unboxi32 a b) s y ∧ y = (a.extractLsb' 0 32).signExtend 64 ∧
      (∀ n, n < 32 → y.getLsbD n = a.getLsbD n) ∧ (∀ n, 32 ≤ n → n < 64 → y.getLsbD n = a.getLsbD 31)) ∧
    Completes (.unboxi32 0x7FF804000000002A#64 b) s 0x000000000000002A#64 ∧
    Completes (.unboxi32 0x7FF80400FFFFFFFF#64 b) s 0xFFFFFFFFFFFFFFFF#64 ∧
    Completes (.unboxi32 0x7FF8040080000000#64 b) s 0xFFFFFFFF80000000#64

/-- R70, R71, R72: the float codec on every operand: the 32 bits of a pattern are copied unchanged, both ways. -/
def Obligations.FloatCodecIsBitExact : Prop :=
  ∀ (a b b' : Word) (s : State),
    ∃ y z : Word, Completes (.boxf32 a b) s y ∧
      y = (0x7FF8040100000000#64 ||| (a.extractLsb' 0 32).zeroExtend 64) ∧
      y.extractLsb' 32 32 = 0x7FF80401#32 ∧
      Completes (.unboxf32 a b) s ((a.extractLsb' 0 32).zeroExtend 64) ∧
      Completes (.unboxf32 y b') s z ∧
      (∀ n, n < 32 → z.getLsbD n = a.getLsbD n) ∧ (∀ n, 32 ≤ n → z.getLsbD n = false) ∧
      Completes (.boxf32 0x3F800000#64 b) s 0x7FF804013F800000#64 ∧
      Completes (.unboxf32 0x7FF80401BF800000#64 b) s 0x00000000BF800000#64

/-- R73, R74, R75: the bool codec reads bit 0 alone; a boxed bool belongs to width class 2 (indicator bit 27, offset 0),
and bit 1 of its payload field is 0. -/
def Obligations.BoolCodecResults : Prop :=
  ∀ (a b : Word) (s : State),
    (∃ y : Word, Completes (.boxbool a b) s y ∧
      y = (if a.getLsbD 0 then 0x7FF8000008000001#64 else 0x7FF8000008000000#64) ∧
      Completes (.tpwidth y b) s 2#64 ∧ Completes (.indpos y b) s 27#64 ∧
      (∀ n, 2 ≤ n → n ≤ 26 → y.getLsbD n = false) ∧ y.getLsbD 1 = false ∧
      (∃ m : Word, Completes (.tpmask 2#64 b) s m ∧ y &&& m = 0x7FF8000008000000#64)) ∧
    Completes (.tprefix 2#64 0#64) s 0x7FF8000008000000#64 ∧
    Completes (.boxbool 2#64 b) s 0x7FF8000008000000#64 ∧
    Completes (.boxbool 1#64 b) s 0x7FF8000008000001#64 ∧
    Completes (.unboxbool a b) s (if a.getLsbD 0 then 1#64 else 0#64) ∧
    Completes (.unboxbool 0x7FF8000008000002#64 b) s 0#64 ∧
    Completes (.unboxbool 0x7FF8000008000001#64 b) s 1#64

/-- R76 to R80: the pointer codecs keep the 48 low bits and drop the others silently; unboxing zero-extends, and both
unbox operations give the same bits. -/
def Obligations.PointerCodecResults : Prop :=
  ∀ (a b : Word) (s : State),
    (∃ y z u : Word, Completes (.boxptr a b) s y ∧ Completes (.boxcptr a b) s z ∧
      Completes (.unboxptr a b) s u ∧ Completes (.unboxcptr a b) s u ∧
      (∀ n, n < 48 → y.getLsbD n = a.getLsbD n) ∧ y.extractLsb' 48 16 = 0x7FFC#16 ∧
      (∀ n, n < 48 → z.getLsbD n = a.getLsbD n) ∧ z.extractLsb' 48 16 = 0x7FFD#16 ∧
      (∀ n, n < 48 → u.getLsbD n = a.getLsbD n) ∧ u.extractLsb' 48 16 = 0x0000#16) ∧
    Completes (.boxptr 0#64 b) s 0x7FFC000000000000#64 ∧
    Completes (.boxptr 0x0001000000000000#64 b) s 0x7FFC000000000000#64 ∧
    Completes (.boxptr 0x00007FFDEADBEEF0#64 b) s 0x7FFC7FFDEADBEEF0#64 ∧
    Completes (.unboxptr 0x7FFC7FFDEADBEEF0#64 b) s 0x00007FFDEADBEEF0#64 ∧
    Completes (.boxcptr 0#64 b) s 0x7FFD000000000000#64 ∧
    Completes (.boxcptr 0x0000123456789ABC#64 b) s 0x7FFD123456789ABC#64 ∧
    Completes (.unboxcptr 0x7FFD123456789ABC#64 b) s 0x0000123456789ABC#64

/-- R81: the round trips of the five codecs, with what a pointer of 2^48 or more gives. -/
def Obligations.UnboxOfBoxGivesTheDatumBack : Prop :=
  ∀ (b b' : Word) (s s' : State),
    (∀ i : BitVec 32, ∃ y : Word, Completes (.boxi32 (i.zeroExtend 64) b) s y ∧
      Completes (.unboxi32 y b') s' (i.signExtend 64) ∧ (i.signExtend 64).extractLsb' 0 32 = i) ∧
    (∀ f : BitVec 32, ∃ y : Word, Completes (.boxf32 (f.zeroExtend 64) b) s y ∧
      Completes (.unboxf32 y b') s' (f.zeroExtend 64)) ∧
    (∀ x : Word, x = 0#64 ∨ x = 1#64 → ∃ y : Word, Completes (.boxbool x b) s y ∧ Completes (.unboxbool y b') s' x) ∧
    (∀ p : Word, ∃ y z : Word, Completes (.boxptr p b) s y ∧ Completes (.boxcptr p b) s z ∧
      (p.toNat < 2 ^ 48 → Completes (.unboxptr y b') s' p ∧ Completes (.unboxcptr z b') s' p) ∧
      (2 ^ 48 ≤ p.toNat → Completes (.unboxptr y b') s' (p &&& 0x0000FFFFFFFFFFFF#64) ∧
        Completes (.unboxcptr z b') s' (p &&& 0x0000FFFFFFFFFFFF#64) ∧ p &&& 0x0000FFFFFFFFFFFF#64 ≠ p))

/-- R82, R23: every box result is a boxed word with sign bit 0 whose type prefix is its stencil, and each stencil is the
type prefix that TPREFIX builds. -/
def Obligations.EveryBoxResultIsBoxedUnderItsStencil : Prop :=
  BoxesUnder .boxi32 32#64 0#64 0x7FF8040000000000#64 42 ∧
  BoxesUnder .boxf32 32#64 1#64 0x7FF8040100000000#64 42 ∧
  BoxesUnder .boxbool 2#64 0#64 0x7FF8000008000000#64 27 ∧
  BoxesUnder .boxptr 48#64 0#64 0x7FFC000000000000#64 50 ∧
  BoxesUnder .boxcptr 48#64 1#64 0x7FFD000000000000#64 50

/-- R48: the type prefix of a built word is recovered by its class's mask whatever the payload, and the int and float
encodings never collide. -/
def Obligations.TypePrefixIsRecoveredFromAnyPayload : Prop :=
  (∀ (vw off x y b : Word) (s : State), InWidthDomain vw → x.toNat < 2 ^ vw.toNat → Completes (.tprefix vw off) s y →
    ∃ m : Word, Completes (.tpmask vw b) s m ∧ (y ||| x) &&& m = y) ∧
  (∀ (x x' b : Word) (s : State), ∃ y z : Word, Completes (.boxi32 x b) s y ∧ Completes (.boxf32 x' b) s z ∧
    y &&& 0xFFFFFFFF00000000#64 = 0x7FF8040000000000#64 ∧ z &&& 0xFFFFFFFF00000000#64 = 0x7FF8040100000000#64 ∧
    y ≠ z)

/-- R83: a mismatched decode is silent and deterministic: whatever word the unbox operations are given, a double or a
word of another codec, they complete with `status = OK` and the bit extraction of their own rules. -/
def Obligations.MismatchedDecodeIsBitExtraction : Prop :=
  ∀ (x b : Word) (s : State), ∃ i f t p c : Word,
    Completes (.boxi32 x b) s i ∧ Completes (.boxf32 x b) s f ∧ Completes (.boxbool x b) s t ∧
    Completes (.boxptr x b) s p ∧ Completes (.boxcptr x b) s c ∧
    (∀ w ∈ [i, f, t, p, c, x],
      Completes (.unboxi32 w b) s ((w.extractLsb' 0 32).signExtend 64) ∧
      Completes (.unboxf32 w b) s ((w.extractLsb' 0 32).zeroExtend 64) ∧
      Completes (.unboxbool w b) s ((w.extractLsb' 0 1).zeroExtend 64) ∧
      Completes (.unboxptr w b) s ((w.extractLsb' 0 48).zeroExtend 64) ∧
      Completes (.unboxcptr w b) s ((w.extractLsb' 0 48).zeroExtend 64)) ∧
    Completes (.unboxf32 i b) s ((x.extractLsb' 0 32).zeroExtend 64) ∧
    Completes (.unboxi32 f b) s ((x.extractLsb' 0 32).signExtend 64) ∧
    Completes (.unboxptr c b) s ((x.extractLsb' 0 48).zeroExtend 64) ∧
    Completes (.unboxcptr p b) s ((x.extractLsb' 0 48).zeroExtend 64)

/-! ## The host's notation -/

/-- R43: a block command of a host program puts the block's `y` in `td` and its `status` in `st`, drives an unused `b`
as 0, and changes no other host value. That a one-operand line may carry any `op` value (a reserved one, or TPREFIX's with
`b` driven as 0), that the position is a line number, and that `st` is a 64-bit value are the model's choices (log 10). -/
def Obligations.HostCommandWritesResultAndStatus : Prop :=
  ∀ (h : HostState) (op : OpCode) (td ta tb : Fin 16),
    (∃ (o : Output) (h' : HostState), eval ⟨op, h.t[ta], 0#64⟩ = some o ∧
      hostExec (.command op td ta) h = .next h' ∧ h'.t[td] = o.y ∧ h'.st.toNat = (statusCode o.status).toNat ∧
      (∀ i : Fin 16, i ≠ td → h'.t[i] = h.t[i]) ∧ h'.pc = h.pc + 1 ∧ h'.halted = h.halted ∧
      h'.block = { h.block with outputs := some o }) ∧
    (∃ (o : Output) (h' : HostState), eval ⟨0x02#5, h.t[ta], h.t[tb]⟩ = some o ∧
      hostExec (.tprefix td ta tb) h = .next h' ∧ h'.t[td] = o.y ∧ h'.st.toNat = (statusCode o.status).toNat ∧
      (∀ i : Fin 16, i ≠ td → h'.t[i] = h.t[i]) ∧ h'.pc = h.pc + 1 ∧ h'.halted = h.halted ∧
      h'.block = { h.block with outputs := some o })

/-- R44: the host pseudo-operations that set a value set `td` alone and are no commands to the block; a branch tests a
host value or `st` and changes none; `halt` ends the program. A label is the position of a line (log 10). -/
def Obligations.HostPseudoOperations : Prop :=
  ∀ (h : HostState) (td ta tb : Fin 16) (imm : Int) (v : HostValue) (label : Nat) (lines : List HostInstr),
    (∀ (i : HostInstr) (r : Word),
      (i, r) ∈ [(HostInstr.li td imm, BitVec.ofInt 64 imm), (HostInstr.and td ta tb, h.t[ta] &&& h.t[tb]),
        (HostInstr.or td ta tb, h.t[ta] ||| h.t[tb]), (HostInstr.xor td ta tb, h.t[ta] ^^^ h.t[tb]),
        (HostInstr.addi td ta imm, h.t[ta] + BitVec.ofInt 64 imm)] →
      ∃ h' : HostState, hostExec i h = .next h' ∧ h'.t[td] = r ∧ (∀ j : Fin 16, j ≠ td → h'.t[j] = h.t[j]) ∧
        h'.st = h.st ∧ h'.block = h.block ∧ h'.halted = h.halted ∧ h'.pc = h.pc + 1) ∧
    hostExec (.beqz v label) h = .next { h with pc := if hostRead h v = 0#64 then label else h.pc + 1 } ∧
    hostExec (.bnez v label) h = .next { h with pc := if hostRead h v ≠ 0#64 then label else h.pc + 1 } ∧
    (∀ i : HostInstr, lines[h.pc]? = some i → h.halted = false → hostStep lines h = hostExec i h) ∧
    (lines[h.pc]? = some .halt → h.halted = false →
      ∃ h' : HostState, hostStep lines h = .next h' ∧ hostStep lines h' = .next h') ∧
    (∀ j : Fin 16, hostReset.t[j] = 0#64) ∧ hostReset.st = 0#64
end

