-- ==== Sys2Proof/Laws/Algebra.lean ====
section
/-! SUPPORT. The model's bit computations in terms of single bits and numbers. -/

namespace Sys2Proof.Machine

/-! ### The leading-zero count -/

theorem leadingZeros_le (x : Word) (n : Nat) : leadingZeros x n ≤ n := by
  induction n with
  | zero => simp [leadingZeros]
  | succ n ih => simp only [leadingZeros]; split <;> omega

/-- The counted bits are zeros. -/
theorem getLsbD_of_leadingZeros (x : Word) (n k : Nat) (hk : n < leadingZeros x n + k + 1) (hn : k < n) :
    n - 1 - leadingZeros x n < k → x.getLsbD k = false := by
  induction n with
  | zero => omega
  | succ n ih =>
    simp only [leadingZeros] at hk ⊢
    split
    · omega
    · rename_i hbit
      intro hlt
      rcases Nat.lt_or_ge k n with hkn | hkn
      · simp only [hbit] at hk
        exact ih (by simp at hk; omega) hkn (by omega)
      · have : k = n := by omega
        simpa [this] using hbit

/-- Where the count stops short of `n`, the bit below the counted zeros is set. -/
theorem getLsbD_leadingZeros (x : Word) (n : Nat) (h : leadingZeros x n < n) :
    x.getLsbD (n - 1 - leadingZeros x n) = true := by
  induction n with
  | zero => omega
  | succ n ih =>
    simp only [leadingZeros] at h ⊢
    split
    · rename_i hbit; simpa using hbit
    · rename_i hbit
      simp only [hbit] at h
      have := ih (by simp at h; omega)
      rwa [show n + 1 - 1 - (leadingZeros x n + 1) = n - 1 - leadingZeros x n by omega]

/-- `clz64` of a word whose highest set bit is bit `p`. -/
theorem clz64_of_highest {x : Word} {p : Nat} (hp : x.getLsbD p = true)
    (habove : ∀ n, p < n → x.getLsbD n = false) : 63 - clz64 x = p := by
  have hp64 : p < 64 := by
    by_contra h
    rw [BitVec.getLsbD_of_ge x p (by omega)] at hp
    exact absurd hp (by decide)
  unfold clz64
  have hle := leadingZeros_le x 64
  rcases Nat.lt_or_ge (leadingZeros x 64) 64 with hlt | hge
  · have hset := getLsbD_leadingZeros x 64 hlt
    rcases Nat.lt_trichotomy p (63 - leadingZeros x 64) with h | h | h
    · rw [habove _ h] at hset; exact absurd hset (by decide)
    · exact h.symm
    · rw [getLsbD_of_leadingZeros x 64 p (by omega) hp64 h] at hp; exact absurd hp (by decide)
  · have h0 : p = 0 ∨ 0 < p := by omega
    have : x.getLsbD p = false := by
      have hz : ∀ n, leadingZeros x n = n → ∀ k, k < n → x.getLsbD k = false := by
        intro n
        induction n with
        | zero => intro _ k hk; omega
        | succ n ih =>
          intro heq k hk
          simp only [leadingZeros] at heq
          split at heq
          · omega
          · rename_i hbit
            rcases Nat.lt_or_ge k n with h | h
            · exact ih (by omega) k h
            · have : k = n := by omega
              simpa [this] using hbit
      exact hz 64 (by omega) p hp64
    rw [this] at hp; exact absurd hp (by decide)

/-! ### The classifier -/

theorem boxedMask_and_toNat (w : Word) : (w &&& boxedMask).toNat = w.toNat % 2 ^ 63 := by
  rw [BitVec.toNat_and]
  exact Nat.and_two_pow_sub_one_eq_mod w.toNat 63

theorem hasBoxedPattern_iff_toNat (w : Word) :
    HasBoxedPattern w ↔ 0x7FF8000000000000 < w.toNat % 2 ^ 63 := by
  have hw := w.isLt
  unfold HasBoxedPattern
  rw [← BitVec.toNat_inj, ne_eq, ← BitVec.toNat_inj]
  simp only [BitVec.extractLsb'_toNat, BitVec.toNat_ofNat, Nat.shiftRight_eq_div_pow]
  omega

/-- The classifier's compare says what R46 says. -/
theorem isBoxedWord_iff (w : Word) : isBoxedWord w = true ↔ HasBoxedPattern w := by
  rw [hasBoxedPattern_iff_toNat, isBoxedWord, decide_eq_true_iff, BitVec.lt_def, boxedMask_and_toNat]
  rfl

theorem isBoxedWord_eq_false_iff (w : Word) : isBoxedWord w = false ↔ ¬ HasBoxedPattern w := by
  rw [← isBoxedWord_iff]; simp

/-! ### The indicator position -/

theorem getLsbD_mantissa (w : Word) (n : Nat) : (w &&& mantissaMask).getLsbD n = (decide (n ≤ 50) && w.getLsbD n) := by
  have h : mantissaMask = BitVec.ofNat 64 (2 ^ 51 - 1) := rfl
  rw [BitVec.getLsbD_and, h, BitVec.getLsbD_ofNat, Nat.testBit_two_pow_sub_one]
  rcases Nat.lt_or_ge n 64 with hn | hn
  · simp [hn, Nat.lt_succ_iff, Bool.and_comm]
  · simp [BitVec.getLsbD_of_ge w n hn]

theorem indicatorPosition_double {w : Word} (h : ¬ HasBoxedPattern w) : indicatorPosition w = 64 := by
  rw [indicatorPosition, (isBoxedWord_eq_false_iff w).2 h]; rfl

/-- INDPOS of a boxed word whose highest set bit among bits 50..0 is bit `p`. -/
theorem indicatorPosition_of_highest {w : Word} {p : Nat} (h : HasBoxedPattern w) (hp : p ≤ 50)
    (hset : w.getLsbD p = true) (habove : ∀ n, p < n → n ≤ 50 → w.getLsbD n = false) : indicatorPosition w = p := by
  rw [indicatorPosition, (isBoxedWord_iff w).2 h, if_pos rfl]
  apply clz64_of_highest
  · rw [getLsbD_mantissa]; simp [hp, hset]
  · intro n hn
    rw [getLsbD_mantissa]
    by_cases hle : n ≤ 50
    · simp [habove n hn hle]
    · simp [hle]

/-- A boxed word has a highest set bit among bits 50..0. -/
theorem exists_highest {w : Word} (h : HasBoxedPattern w) :
    ∃ p, p ≤ 50 ∧ w.getLsbD p = true ∧ ∀ n, p < n → n ≤ 50 → w.getLsbD n = false := by
  by_contra hno
  push Not at hno
  apply h.2
  have hall : ∀ k n, 50 < n + k → n ≤ 50 → w.getLsbD n = false := by
    intro k
    induction k with
    | zero => intro n h1 h2; omega
    | succ k ih =>
      intro n h1 h2
      by_contra hn
      obtain ⟨m, hm1, hm2, hm3⟩ := hno n h2 (by simpa using hn)
      exact hm3 (ih m (by omega) hm2)
  ext n hn
  simp [hall 51 n (by omega) (by omega)]

/-! ### Valid widths -/

theorem validWidth_iff (a : Word) : validWidth a = true ↔ InWidthDomain a := by
  have h0 : a.getLsbD 0 = decide (a.toNat % 2 = 1) := by
    rw [BitVec.getLsbD, Nat.testBit_zero]
  simp only [validWidth, h0, Bool.and_eq_true, decide_eq_true_iff, Bool.not_eq_true', decide_eq_false_iff_not,
    BitVec.le_def, InWidthDomain]
  constructor
  · rintro ⟨h1, h2⟩
    exact ⟨a.toNat / 2, by simp at h1; omega, by omega⟩
  · rintro ⟨k, h1, h2⟩
    exact ⟨by simp; omega, by omega⟩

theorem validWidth_eq_false_iff (a : Word) : validWidth a = false ↔ ¬ InWidthDomain a := by
  rw [← validWidth_iff]; simp

/-! ### The bits of a type prefix -/

theorem getLsbD_lowMask (m n : Nat) (hm : m < 64) : ((1#64 <<< m) - 1#64).getLsbD n = decide (n < m) := by
  have h : (1#64 <<< m) - 1#64 = BitVec.ofNat 64 (2 ^ m - 1) := by
    apply BitVec.eq_of_toNat_eq
    have h1 : 2 ^ m ≤ 2 ^ 63 := Nat.pow_le_pow_right (by decide) (by omega)
    have h2 : 0 < 2 ^ m := Nat.two_pow_pos m
    simp only [BitVec.toNat_sub, BitVec.toNat_shiftLeft, BitVec.toNat_ofNat, Nat.shiftLeft_eq]
    omega
  rw [h, BitVec.getLsbD_ofNat, Nat.testBit_two_pow_sub_one]
  by_cases hn : n < m
  · simp [hn]; omega
  · simp [hn]

theorem getLsbD_nanValue (n : Nat) : nanValue.getLsbD n = decide (51 ≤ n ∧ n ≤ 62) := by
  rcases Nat.lt_or_ge n 64 with hn | hn
  · exact (show ∀ k : Fin 64, nanValue.getLsbD k = decide (51 ≤ k.val ∧ k.val ≤ 62) by decide) ⟨n, hn⟩
  · rw [BitVec.getLsbD_of_ge _ n hn]; simp; omega

theorem getLsbD_indicatorBit (vw n : Nat) : (indicatorBit vw).getLsbD n = decide (n + numbZeros vw = 50) := by
  have h : ∀ k : Nat, indicatorUnit.getLsbD k = decide (k = 50) := by
    intro k
    rcases Nat.lt_or_ge k 64 with hk | hk
    · exact (show ∀ j : Fin 64, indicatorUnit.getLsbD j = decide (j.val = 50) by decide) ⟨k, hk⟩
    · rw [BitVec.getLsbD_of_ge _ k hk]; simp; omega
  rw [indicatorBit, BitVec.getLsbD_ushiftRight, h, Nat.add_comm]

theorem getLsbD_offsetField {vw : Nat} (hvw : vw ≤ 48) (off : Word) (n : Nat) :
    (offsetField vw off).getLsbD n = (decide (vw ≤ n ∧ n < vw + offsetWidth vw) && off.getLsbD (n - vw)) := by
  have hfw : offsetWidth vw < 64 := by unfold offsetWidth numbZeros; omega
  have hsum : vw + offsetWidth vw ≤ 64 := by unfold offsetWidth numbZeros; omega
  rw [offsetField, BitVec.getLsbD_shiftLeft, BitVec.getLsbD_and, getLsbD_lowMask _ _ hfw]
  by_cases h1 : vw ≤ n
  · by_cases h2 : n < vw + offsetWidth vw
    · have h3 : n - vw < offsetWidth vw := by omega
      have h4 : n < 64 := by omega
      simp [h1, h2, h3, h4]
    · have h3 : ¬ n - vw < offsetWidth vw := by omega
      simp [h2, h3]
  · simp [h1]

/-- The bits of `typePrefix vw off`, field by field (R45 of spec/30_encoding.md). -/
theorem getLsbD_typePrefix {vw : Nat} (hvw : vw ≤ 48) (off : Word) (n : Nat) :
    (typePrefix vw off).getLsbD n =
      (decide (51 ≤ n ∧ n ≤ 62) || decide (n + numbZeros vw = 50) ||
        (decide (vw ≤ n ∧ n < vw + offsetWidth vw) && off.getLsbD (n - vw))) := by
  rw [typePrefix, BitVec.getLsbD_or, BitVec.getLsbD_or, getLsbD_nanValue, getLsbD_indicatorBit,
    getLsbD_offsetField hvw]

/-- A payload below `2^vw` has no bit at or above `vw`. -/
theorem getLsbD_payload {x : Word} {vw n : Nat} (hx : x.toNat < 2 ^ vw) (hn : vw ≤ n) : x.getLsbD n = false :=
  Nat.testBit_lt_two_pow (Nat.lt_of_lt_of_le hx (Nat.pow_le_pow_right (by decide) hn))

end Sys2Proof.Machine
end

