-- ==== Sys2Proof/Laws/Decode.lean ====
section
/-! SUPPORT. The decoder's inversion lemma, and the flat numbering of a command as a pair of inverse maps. -/

namespace Sys2Proof

/-- The bits of the flat numbering (log 5). -/
theorem Command.getLsbD_toBits (c : Command) (n : Nat) :
    c.toBits.getLsbD n =
      if n < 5 then c.op.getLsbD n else if n < 69 then c.a.getLsbD (n - 5) else c.b.getLsbD (n - 69) := by
  have h : c.toBits.getLsbD n = ((c.b ++ c.a) ++ c.op).getLsbD n := rfl
  rw [h, BitVec.getLsbD_append, BitVec.getLsbD_append]
  by_cases h5 : n < 5
  · simp [h5]
  · by_cases h69 : n < 69
    · simp [h5, h69, show n - 5 < 64 by omega]
    · simp [h5, h69, show ¬ n - 5 < 64 by omega, show n - 5 - 64 = n - 69 by omega]

@[simp] theorem Command.ofBits_toBits (c : Command) : Command.ofBits c.toBits = c := by
  obtain ⟨op, a, b⟩ := c
  simp only [Command.ofBits, Command.mk.injEq]
  refine ⟨?_, ?_, ?_⟩ <;> apply BitVec.eq_of_getLsbD_eq <;> intro n hn <;>
    rw [BitVec.getLsbD_extractLsb', Command.getLsbD_toBits]
  · simp [hn]
  · simp [hn, show 5 + n < 69 by omega]
  · simp [hn, show ¬ 69 + n < 5 by omega]

@[simp] theorem Command.toBits_ofBits (w : BitVec 133) : (Command.ofBits w).toBits = w := by
  apply BitVec.eq_of_getLsbD_eq
  intro n hn
  rw [Command.getLsbD_toBits]
  simp only [Command.ofBits, BitVec.getLsbD_extractLsb']
  by_cases h5 : n < 5
  · simp [h5]
  · by_cases h69 : n < 69
    · simp [h5, h69, show n - 5 < 64 by omega, show 5 + (n - 5) = n by omega]
    · simp [h5, h69, show n - 69 < 64 by omega, show 69 + (n - 69) = n by omega]

/-- Every `op` value is one of the 32 numbers below 32. -/
theorem opCode_toNat_lt (op : OpCode) : op.toNat < 32 := op.isLt

/-- A legal decoding gives back the very command: the `op` pattern and both operand words. -/
theorem command_of_decode {c : Command} {i : Instr} (h : decode c = .legal i) : i.command = c := by
  obtain ⟨op, a, b⟩ := c
  unfold decode at h
  split at h <;> cases h
  all_goals
    rename_i hop
    simp only [Instr.command, Command.mk.injEq, and_true]
    exact BitVec.eq_of_toNat_eq hop.symm

/-- The reserved `op` values, by number (R41 of spec/30_encoding.md). -/
theorem decode_reserved_iff (c : Command) :
    decode c = .reservedOp c.op ↔ (c.op.toNat = 7 ∨ 18 ≤ c.op.toNat) := by
  have hlt := opCode_toNat_lt c.op
  unfold decode
  split <;> simp_all
  omega

/-- The decoder answers one of two ways. -/
theorem decode_cases (c : Command) : (∃ i, decode c = .legal i) ∨ decode c = .reservedOp c.op := by
  unfold decode
  split <;> simp

end Sys2Proof
end

