-- ==== Sys2Proof/Laws/State.lean ====
section
/-! SUPPORT. One lemma for each field of State under each update, so that no later proof unfolds a record update. -/

namespace Sys2Proof.Machine

@[simp] theorem drive_commands (o : Output) (s : State) : (drive o s).commands = s.commands := rfl
@[simp] theorem drive_outputs (o : Output) (s : State) : (drive o s).outputs = some o := rfl
@[simp] theorem drive_drive (o o' : Output) (s : State) : drive o (drive o' s) = drive o s := rfl

@[simp] theorem present_commands (c : Command) (s : State) : (present c s).commands = c :: s.commands := rfl
@[simp] theorem present_outputs (c : Command) (s : State) : (present c s).outputs = s.outputs := rfl

@[simp] theorem reset_commands : State.reset.commands = [] := rfl
@[simp] theorem reset_outputs : State.reset.outputs = none := rfl

end Sys2Proof.Machine
end

