-- ==== Sys2Proof/Laws/Ops.lean ====
section
/-! SUPPORT. What each shared operation does, said once; later proofs cite these and do not unfold the operations. -/

namespace Sys2Proof.Machine

theorem complete_eq (y : Word) (s : State) :
    complete y s = .next { s with outputs := some { y := y, status := .ok } } := rfl

theorem raise_eq (st : Status) (s : State) :
    raise st s = .next { s with outputs := some { y := 0#64, status := st } } := rfl

theorem nextCommand_nil {s : State} (h : s.commands = []) : nextCommand s = none := by
  simp [nextCommand, h]

theorem nextCommand_cons {s : State} {c : Command} {rest : List Command} (h : s.commands = c :: rest) :
    nextCommand s = some (c, { s with commands := rest }) := by
  simp [nextCommand, h]

@[simp] theorem nextCommand_present (c : Command) (s : State) : nextCommand (present c s) = some (c, s) := rfl

theorem readOutputs_some {s : State} {o : Output} (h : s.outputs = some o) : readOutputs s = .ok o := by
  simp [readOutputs, h]

theorem readOutputs_none {s : State} (h : s.outputs = none) : readOutputs s = .error .outputsUnspecified := by
  simp [readOutputs, h]

theorem readY_some {s : State} {o : Output} (h : s.outputs = some o) : readY s = .ok o.y := by
  simp [readY, readOutputs, h, Except.map]

theorem readStatus_some {s : State} {o : Output} (h : s.outputs = some o) :
    readStatus s = .ok (statusCode o.status) := by
  simp [readStatus, readOutputs, h, Except.map]

/-- An instruction completes with one result only. -/
theorem Completes.unique {i : Instr} {s : State} {y z : Word} (hy : Completes i s y) (hz : Completes i s z) :
    y = z := by
  simpa [Completes] using hy.symm.trans hz

/-- An instruction that completes is not rejected. -/
theorem Completes.not_rejects {i : Instr} {s : State} {y : Word} {st : Status} (hy : Completes i s y)
    (hst : st ≠ .ok) : ¬ Rejects i s st := by
  intro hr
  have h := hy.symm.trans hr
  simp only [Host.Outcome.next.injEq, State.mk.injEq, Option.some.injEq, Output.mk.injEq, true_and] at h
  exact hst h.2.symm

end Sys2Proof.Machine
end

