-- ==== Sys2Proof/Laws/Exec.lean ====
section
/-! SUPPORT. One lemma for each instruction: with which result it completes, or that it is rejected. Later proofs cite
these and unfold neither exec nor a meaning. -/

namespace Sys2Proof.Machine

theorem complete_eq_next_iff (x y : Word) (s : State) :
    complete x s = .next { s with outputs := some { y := y, status := .ok } } ↔ x = y := by
  rw [complete_eq]; simp

theorem completes_isboxed_iff {a b y : Word} {s : State} :
    Completes (.isboxed a b) s y ↔ boolWord (isBoxedWord a) = y := complete_eq_next_iff _ _ _
theorem completes_isdouble_iff {a b y : Word} {s : State} :
    Completes (.isdouble a b) s y ↔ boolWord (!isBoxedWord a) = y := complete_eq_next_iff _ _ _
theorem completes_indpos_iff {a b y : Word} {s : State} :
    Completes (.indpos a b) s y ↔ BitVec.ofNat 64 (indicatorPosition a) = y := complete_eq_next_iff _ _ _
theorem completes_tiwidth_iff {a b y : Word} {s : State} :
    Completes (.tiwidth a b) s y ↔ wrap64 (typeIndicatorWidth a) = y := complete_eq_next_iff _ _ _
theorem completes_tpwidth_iff {a b y : Word} {s : State} :
    Completes (.tpwidth a b) s y ↔ wrap64 (typePrefixWidth a) = y := complete_eq_next_iff _ _ _
theorem completes_boxi32_iff {a b y : Word} {s : State} :
    Completes (.boxi32 a b) s y ↔ boxWord stencilI32 (zext64 (low32 a)) = y := complete_eq_next_iff _ _ _
theorem completes_unboxi32_iff {a b y : Word} {s : State} :
    Completes (.unboxi32 a b) s y ↔ sext64 (low32 a) = y := complete_eq_next_iff _ _ _
theorem completes_boxf32_iff {a b y : Word} {s : State} :
    Completes (.boxf32 a b) s y ↔ boxWord stencilF32 (zext64 (low32 a)) = y := complete_eq_next_iff _ _ _
theorem completes_unboxf32_iff {a b y : Word} {s : State} :
    Completes (.unboxf32 a b) s y ↔ zext64 (low32 a) = y := complete_eq_next_iff _ _ _
theorem completes_boxbool_iff {a b y : Word} {s : State} :
    Completes (.boxbool a b) s y ↔ boxWord stencilBool (boolWord (bit0 a)) = y := complete_eq_next_iff _ _ _
theorem completes_unboxbool_iff {a b y : Word} {s : State} :
    Completes (.unboxbool a b) s y ↔ boolWord (bit0 a) = y := complete_eq_next_iff _ _ _
theorem completes_boxptr_iff {a b y : Word} {s : State} :
    Completes (.boxptr a b) s y ↔ boxWord stencilPtr (low48 a) = y := complete_eq_next_iff _ _ _
theorem completes_unboxptr_iff {a b y : Word} {s : State} :
    Completes (.unboxptr a b) s y ↔ low48 a = y := complete_eq_next_iff _ _ _
theorem completes_boxcptr_iff {a b y : Word} {s : State} :
    Completes (.boxcptr a b) s y ↔ boxWord stencilCptr (low48 a) = y := complete_eq_next_iff _ _ _
theorem completes_unboxcptr_iff {a b y : Word} {s : State} :
    Completes (.unboxcptr a b) s y ↔ low48 a = y := complete_eq_next_iff _ _ _

theorem execTprefix_valid {a : Word} (h : InWidthDomain a) (b : Word) (s : State) :
    exec (.tprefix a b) s = complete (typePrefix a.toNat b) s := by
  show execTprefix a b s = _
  simp [execTprefix, (validWidth_iff a).2 h]

theorem execTprefix_invalid {a : Word} (h : ¬ InWidthDomain a) (b : Word) (s : State) :
    exec (.tprefix a b) s = raise .domain s := by
  show execTprefix a b s = _
  simp [execTprefix, (validWidth_eq_false_iff a).2 h]

theorem execTpmask_valid {a : Word} (h : InWidthDomain a) (b : Word) (s : State) :
    exec (.tpmask a b) s = complete (typePrefixMask a.toNat) s := by
  show execTpmask a b s = _
  simp [execTpmask, (validWidth_iff a).2 h]

theorem execTpmask_invalid {a : Word} (h : ¬ InWidthDomain a) (b : Word) (s : State) :
    exec (.tpmask a b) s = raise .domain s := by
  show execTpmask a b s = _
  simp [execTpmask, (validWidth_eq_false_iff a).2 h]

theorem completes_tprefix_iff {a b y : Word} {s : State} :
    Completes (.tprefix a b) s y ↔ InWidthDomain a ∧ typePrefix a.toNat b = y := by
  by_cases h : InWidthDomain a
  · rw [Completes, execTprefix_valid h, complete_eq_next_iff]; simp [h]
  · rw [Completes, execTprefix_invalid h, raise_eq]; simp [h]

theorem completes_tpmask_iff {a b y : Word} {s : State} :
    Completes (.tpmask a b) s y ↔ InWidthDomain a ∧ typePrefixMask a.toNat = y := by
  by_cases h : InWidthDomain a
  · rw [Completes, execTpmask_valid h, complete_eq_next_iff]; simp [h]
  · rw [Completes, execTpmask_invalid h, raise_eq]; simp [h]

/-- A width of the domain, by its number. -/
theorem inWidthDomain_iff_toNat (a : Word) : InWidthDomain a ↔ a.toNat ≤ 48 ∧ a.toNat % 2 = 0 := by
  constructor
  · rintro ⟨k, h1, h2⟩; omega
  · rintro ⟨h1, h2⟩; exact ⟨a.toNat / 2, by omega, by omega⟩

/-- The operand of the pointer codecs, bit by bit. -/
theorem getLsbD_low48 (a : Word) (n : Nat) : (low48 a).getLsbD n = (decide (n < 48) && a.getLsbD n) := by
  have hm : ptrMask = BitVec.ofNat 64 (2 ^ 48 - 1) := rfl
  rw [low48, BitVec.getLsbD_and, hm, BitVec.getLsbD_ofNat, Nat.testBit_two_pow_sub_one]
  by_cases h : n < 64
  · simp [h, Bool.and_comm]
  · rw [BitVec.getLsbD_of_ge a n (by omega)]; simp

/-- The operand of the int and float codecs depends on bits 31..0 alone. -/
theorem low32_congr {a a' : Word} (h : ∀ n, n < 32 → a.getLsbD n = a'.getLsbD n) : low32 a = low32 a' := by
  apply BitVec.eq_of_getLsbD_eq
  intro n hn
  simp [low32, hn, h n hn]

/-- The operand of the pointer codecs depends on bits 47..0 alone. -/
theorem low48_congr {a a' : Word} (h : ∀ n, n < 48 → a.getLsbD n = a'.getLsbD n) : low48 a = low48 a' := by
  apply BitVec.eq_of_getLsbD_eq
  intro n _
  rw [getLsbD_low48, getLsbD_low48]
  by_cases hn : n < 48
  · rw [h n hn]
  · simp [hn]

end Sys2Proof.Machine
end

