-- ==== Sys2Proof/Laws/HostProgram.lean ====
section
/-! SUPPORT. One lemma for each field of HostState under each update of a host program. -/

namespace Sys2Proof.Machine

@[simp] theorem hostSet_t (td : Fin 16) (v : Word) (h : HostState) : (hostSet td v h).t = h.t.set td v := rfl
@[simp] theorem hostSet_st (td : Fin 16) (v : Word) (h : HostState) : (hostSet td v h).st = h.st := rfl
@[simp] theorem hostSet_pc (td : Fin 16) (v : Word) (h : HostState) : (hostSet td v h).pc = h.pc + 1 := rfl
@[simp] theorem hostSet_halted (td : Fin 16) (v : Word) (h : HostState) : (hostSet td v h).halted = h.halted := rfl
@[simp] theorem hostSet_block (td : Fin 16) (v : Word) (h : HostState) : (hostSet td v h).block = h.block := rfl

@[simp] theorem hostBranch_t (k : Bool) (l : Nat) (h : HostState) : (hostBranch k l h).t = h.t := rfl
@[simp] theorem hostBranch_st (k : Bool) (l : Nat) (h : HostState) : (hostBranch k l h).st = h.st := rfl
@[simp] theorem hostBranch_pc (k : Bool) (l : Nat) (h : HostState) :
    (hostBranch k l h).pc = if k then l else h.pc + 1 := rfl
@[simp] theorem hostBranch_halted (k : Bool) (l : Nat) (h : HostState) : (hostBranch k l h).halted = h.halted := rfl
@[simp] theorem hostBranch_block (k : Bool) (l : Nat) (h : HostState) : (hostBranch k l h).block = h.block := rfl

/-- `td` holds the value set, and every other host value what it held. -/
theorem hostSet_get (td i : Fin 16) (v : Word) (h : HostState) :
    (hostSet td v h).t[i] = if i = td then v else h.t[i] := by
  by_cases hi : i = td
  · simp [hi]
  · have : td.val ≠ i.val := fun hv => hi (Fin.ext hv.symm)
    simp [hi, this]

end Sys2Proof.Machine
end

