-- ==== Sys2Proof/Laws/PerInstr.lean ====
section
/-! SUPPORT. The family `CommandDecodes`: the command an instruction is presented by decodes to that instruction (R38, R39 of
spec/30_encoding.md). -/

namespace Sys2Proof.Laws.CommandDecodes

def Statement (i : Instr) : Prop := decode i.command = .legal i

theorem isboxed (a b : Word) : Statement (.isboxed a b) := rfl
theorem isdouble (a b : Word) : Statement (.isdouble a b) := rfl
theorem tprefix (a b : Word) : Statement (.tprefix a b) := rfl
theorem tpmask (a b : Word) : Statement (.tpmask a b) := rfl
theorem indpos (a b : Word) : Statement (.indpos a b) := rfl
theorem tiwidth (a b : Word) : Statement (.tiwidth a b) := rfl
theorem tpwidth (a b : Word) : Statement (.tpwidth a b) := rfl
theorem boxi32 (a b : Word) : Statement (.boxi32 a b) := rfl
theorem unboxi32 (a b : Word) : Statement (.unboxi32 a b) := rfl
theorem boxf32 (a b : Word) : Statement (.boxf32 a b) := rfl
theorem unboxf32 (a b : Word) : Statement (.unboxf32 a b) := rfl
theorem boxbool (a b : Word) : Statement (.boxbool a b) := rfl
theorem unboxbool (a b : Word) : Statement (.unboxbool a b) := rfl
theorem boxptr (a b : Word) : Statement (.boxptr a b) := rfl
theorem unboxptr (a b : Word) : Statement (.unboxptr a b) := rfl
theorem boxcptr (a b : Word) : Statement (.boxcptr a b) := rfl
theorem unboxcptr (a b : Word) : Statement (.unboxcptr a b) := rfl

end Sys2Proof.Laws.CommandDecodes
end

