-- ==== Sys2Proof/Laws/Pipeline.lean ====
section
/-! SUPPORT. One cycle of the pipelined implementation: what leaves is the oldest place, and the others move on. -/

namespace Sys2Proof.Machine

/-- What a cycle delivers and leaves, in one form for every latency: with the issued command put in front, the last place
leaves and the rest stay. -/
theorem pipeCycle_eq (issued : Option Command) (p : Pipe) :
    pipeCycle issued p =
      (((issued :: p.stages).getLast (List.cons_ne_nil _ _)).bind eval, { stages := (issued :: p.stages).dropLast }) := by
  obtain ⟨stages⟩ := p
  cases stages with
  | nil => rfl
  | cons c rest => simp [pipeCycle, List.dropLast]

theorem pipeCycle_length (issued : Option Command) (p : Pipe) :
    (pipeCycle issued p).2.stages.length = p.stages.length := by
  rw [pipeCycle_eq]; simp

@[simp] theorem pipeRun_nil (p : Pipe) : pipeRun [] p = ([], p) := rfl

theorem pipeRun_cons (issued : Option Command) (later : List (Option Command)) (p : Pipe) :
    pipeRun (issued :: later) p =
      ((pipeCycle issued p).1 :: (pipeRun later (pipeCycle issued p).2).1, (pipeRun later (pipeCycle issued p).2).2) := rfl

end Sys2Proof.Machine
end

