-- ==== Sys2Proof/Laws/Step.lean ====
section
/-! SUPPORT. What a step can do, said once. -/

namespace Sys2Proof.Machine

/-- What exec can do: drive the outputs and nothing else, with the same outputs in every state; `y = 0` beside any status
but OK. -/
theorem exec_drives (i : Instr) : ∃ o : Output, (o.status = .ok ∨ o.y = 0#64) ∧ ∀ s, exec i s = .next (drive o s) := by
  cases i with
  | tprefix a b =>
    cases h : validWidth a
    · exact ⟨⟨0#64, .domain⟩, .inr rfl, fun s => by simp [exec, execTprefix, h, raise]⟩
    · exact ⟨⟨typePrefix a.toNat b, .ok⟩, .inl rfl, fun s => by simp [exec, execTprefix, h, complete]⟩
  | tpmask a b =>
    cases h : validWidth a
    · exact ⟨⟨0#64, .domain⟩, .inr rfl, fun s => by simp [exec, execTpmask, h, raise]⟩
    · exact ⟨⟨typePrefixMask a.toNat, .ok⟩, .inl rfl, fun s => by simp [exec, execTpmask, h, complete]⟩
  | _ => exact ⟨⟨_, .ok⟩, .inl rfl, fun _ => rfl⟩

/-- A step with no command presented. -/
theorem step_nil {s : State} (h : s.commands = []) : step s = .refused .noCommand := by
  simp [step, nextCommand_nil h]

/-- A step that samples a legal command. -/
theorem step_legal {s : State} {c : Command} {rest : List Command} {i : Instr} (h : s.commands = c :: rest)
    (hd : decode c = .legal i) : step s = exec i { s with commands := rest } := by
  simp [step, nextCommand_cons h, hd]

/-- A step that samples a command with a reserved `op`. -/
theorem step_reserved {s : State} {c : Command} {rest : List Command} (h : s.commands = c :: rest)
    (hd : decode c = .reservedOp c.op) : step s = raise .illegalOp { s with commands := rest } := by
  simp [step, nextCommand_cons h, hd]

/-- What a step can do: refuse where no command is presented, or sample one and drive outputs that depend on that command
alone. -/
theorem step_drives (c : Command) : ∃ o : Output, (o.status = .ok ∨ o.y = 0#64) ∧
    ∀ s rest, s.commands = c :: rest → step s = .next { commands := rest, outputs := some o } := by
  obtain ⟨i, hd⟩ | hd := decode_cases c
  · obtain ⟨o, ho, he⟩ := exec_drives i
    exact ⟨o, ho, fun s rest h => by rw [step_legal h hd, he]; rfl⟩
  · exact ⟨⟨0#64, .illegalOp⟩, .inr rfl, fun s rest h => by rw [step_reserved h hd]; rfl⟩

end Sys2Proof.Machine
end

