-- ==== Sys2Proof/Laws/Run.lean ====
section
/-! SUPPORT. Runs of any machine behind the host's interface, one step at a time, and a run of this one over commands. -/

namespace Sys2Proof.Machine

theorem run_zero (M : Host.Core) (s : M.State) : M.run 0 s = .next s := rfl

/-- A run whose first step answers a next state goes on from there. -/
theorem run_succ_of_next (M : Host.Core) {n : Nat} {s t : M.State} (h : M.step s = .next t) :
    M.run (n + 1) s = M.run n t := by
  rw [Host.Core.run.eq_def]
  simp only [h]

/-- A run over a presented command goes on with the rest of the commands. -/
theorem run_command (c : Command) : ∃ out : Output, (out.status = .ok ∨ out.y = 0#64) ∧
    ∀ (n : Nat) (rest : List Command) (o : Option Output),
      Host.Core.run core (n + 1) { commands := c :: rest, outputs := o : State } =
        Host.Core.run core n { commands := rest, outputs := some out : State } := by
  obtain ⟨out, hout, h⟩ := step_drives c
  exact ⟨out, hout, fun n rest o => run_succ_of_next core (h { commands := c :: rest, outputs := o } rest rfl)⟩

end Sys2Proof.Machine
end

