-- ==== Sys2Proof/Tests/Slice0.lean ====
section
/-! SUPPORT. Small tests. Every expected value is copied from spec/95_test_vectors.md (its W and V numbers stand in the
names), from the table of R58, or from the encodings of R39; and, at the end, a witness for the hypotheses of each
statement. -/

namespace Sys2Proof.Tests

open Sys2Proof Sys2Proof.Machine

/-! ### The well-formedness check refuses a driven `b` (R43), one term for each check -/

theorem test_wellFormed_refuses_a_driven_b :
    ∀ i ∈ [Instr.isboxed 0 1, .isdouble 0 1, .tpmask 0 1, .indpos 0 1, .tiwidth 0 1, .tpwidth 0 1, .boxi32 0 1,
      .unboxi32 0 1, .boxf32 0 1, .unboxf32 0 1, .boxbool 0 1, .unboxbool 0 1, .boxptr 0 1, .unboxptr 0 1,
      .boxcptr 0 1, .unboxcptr 0 1], i.wellFormed = false := by decide

theorem test_wellFormed_accepts : (Instr.tprefix 32 8).wellFormed = true ∧ (Instr.isboxed 7 0).wellFormed = true := by
  decide

/-! ### Decoding: `op[4:0]` written out from R39 -/

theorem test_decode_classifier : decode ⟨0b00001#5, 3, 4⟩ = .legal (.isdouble 3 4) := by decide
theorem test_decode_algebra : decode ⟨0b00010#5, 32, 8⟩ = .legal (.tprefix 32 8) := by decide
theorem test_decode_codecs : decode ⟨0b01101#5, 3, 0⟩ = .legal (.unboxbool 3 0) := by decide
theorem test_decode_op4 : decode ⟨0b10001#5, 3, 0⟩ = .legal (.unboxcptr 3 0) := by decide
theorem test_decode_reserved : decode ⟨0b00111#5, 5, 0⟩ = .reservedOp 0b00111#5 ∧
    decode ⟨0b10010#5, 0, 0⟩ = .reservedOp 0b10010#5 ∧ decode ⟨0b11111#5, 0, 0⟩ = .reservedOp 0b11111#5 := by decide

/-- Each row's word of spec/opcode_table.json, in the table's order (the column "match"). -/
theorem test_decode_table_words :
    [0x00, 0x01, 0x02, 0x03, 0x04, 0x05, 0x06, 0x08, 0x09, 0x0A, 0x0B, 0x0C, 0x0D, 0x0E, 0x0F, 0x10, 0x11].map
      (decodeTableWord 8) =
    [some (.isboxed 0 0), some (.isdouble 0 0), some (.tprefix 0 0), some (.tpmask 0 0), some (.indpos 0 0),
      some (.tiwidth 0 0), some (.tpwidth 0 0), some (.boxi32 0 0), some (.unboxi32 0 0), some (.boxf32 0 0),
      some (.unboxf32 0 0), some (.boxbool 0 0), some (.unboxbool 0 0), some (.boxptr 0 0), some (.unboxptr 0 0),
      some (.boxcptr 0 0), some (.unboxcptr 0 0)] := by decide

/-- W1's command as one number: `op` = 2 in bits 4..0, `a` = 32 from bit 5, `b` = 8 from bit 69. -/
theorem test_decode_full_word : decodeTableWord 133 (2 + 32 * 2 ^ 5 + 8 * 2 ^ 69) = some (.tprefix 32 8) := by decide

/-! ### Vectors of spec/95_test_vectors.md, each one step from reset (R19) -/

theorem test_V9_isboxed_strict : eval ⟨0x00#5, 0x7FF8000000000000#64, 0⟩ = some ⟨0, .ok⟩ := by decide
theorem test_V12_isboxed_sign : eval ⟨0x00#5, 0xFFF8000000000001#64, 0⟩ = some ⟨1, .ok⟩ := by decide
theorem test_V8_isdouble : eval ⟨0x01#5, 0x7FF7FFFFFFFFFFFF#64, 0⟩ = some ⟨1, .ok⟩ := by decide
theorem test_V16_isdouble : eval ⟨0x01#5, 0xFFFC000000000000#64, 0⟩ = some ⟨0, .ok⟩ := by decide
theorem test_W1_tprefix : eval ⟨0x02#5, 32, 8⟩ = some ⟨0x7FF8040800000000#64, .ok⟩ := by decide
theorem test_V44_tprefix_all_64_bits : eval ⟨0x02#5, 0x0000000100000020#64, 0⟩ = some ⟨0, .domain⟩ := by decide
theorem test_V46_tpmask : eval ⟨0x03#5, 2, 0⟩ = some ⟨0xFFFFFFFFFFFFFFFC#64, .ok⟩ := by decide
theorem test_V50_tpmask : eval ⟨0x03#5, 50, 0⟩ = some ⟨0, .domain⟩ := by decide
theorem test_W3_indpos : eval ⟨0x04#5, 0x7FF84008FFFFFFFF#64, 0⟩ = some ⟨46, .ok⟩ := by decide
theorem test_V3_indpos_double : eval ⟨0x04#5, 0x3FF0000000000000#64, 0⟩ = some ⟨64, .ok⟩ := by decide
theorem test_V1_tiwidth_double : eval ⟨0x05#5, 0, 0⟩ = some ⟨0xFFFFFFFFFFFFFFE7#64, .ok⟩ := by decide
theorem test_V59_tiwidth : eval ⟨0x05#5, 0x7FF84008FFFFFFFF#64, 0⟩ = some ⟨11, .ok⟩ := by decide
theorem test_V11_tpwidth_negative : eval ⟨0x06#5, 0x7FF8000000000001#64, 0⟩ = some ⟨0xFFFFFFFFFFFFFFCC#64, .ok⟩ := by
  decide
theorem test_V9_tpwidth_double : eval ⟨0x06#5, 0x7FF8000000000000#64, 0⟩ = some ⟨76, .ok⟩ := by decide
theorem test_V65_boxi32 : eval ⟨0x08#5, 0xFFFFFFFF0000002A#64, 0⟩ = some ⟨0x7FF804000000002A#64, .ok⟩ := by decide
theorem test_V61_boxi32 : eval ⟨0x08#5, 0xFFFFFFFF#64, 0⟩ = some ⟨0x7FF80400FFFFFFFF#64, .ok⟩ := by decide
theorem test_V68_unboxi32 : eval ⟨0x09#5, 0x7FF8040080000000#64, 0⟩ = some ⟨0xFFFFFFFF80000000#64, .ok⟩ := by decide
theorem test_V69_unboxi32 : eval ⟨0x09#5, 0x7FF804007FFFFFFF#64, 0⟩ = some ⟨0x000000007FFFFFFF#64, .ok⟩ := by decide
theorem test_V74_boxf32_snan : eval ⟨0x0A#5, 0x7F800001#64, 0⟩ = some ⟨0x7FF804017F800001#64, .ok⟩ := by decide
theorem test_V79_unboxf32 : eval ⟨0x0B#5, 0x7FF80401FFFFFFFF#64, 0⟩ = some ⟨0x00000000FFFFFFFF#64, .ok⟩ := by decide
theorem test_V82_boxbool : eval ⟨0x0C#5, 2, 0⟩ = some ⟨0x7FF8000008000000#64, .ok⟩ := by decide
theorem test_V83_boxbool : eval ⟨0x0C#5, 3, 0⟩ = some ⟨0x7FF8000008000001#64, .ok⟩ := by decide
theorem test_V86_unboxbool : eval ⟨0x0D#5, 0x7FF8000008000002#64, 0⟩ = some ⟨0, .ok⟩ := by decide
theorem test_V87_unboxbool : eval ⟨0x0D#5, 0x7FF8000008000003#64, 0⟩ = some ⟨1, .ok⟩ := by decide
theorem test_V90_boxptr : eval ⟨0x0E#5, 0x0001000000000000#64, 0⟩ = some ⟨0x7FFC000000000000#64, .ok⟩ := by decide
theorem test_V92_boxptr : eval ⟨0x0E#5, 0xFFFFFFFFFFFFFFFF#64, 0⟩ = some ⟨0x7FFCFFFFFFFFFFFF#64, .ok⟩ := by decide
theorem test_V94_unboxptr : eval ⟨0x0F#5, 0x7FFC800000000000#64, 0⟩ = some ⟨0x0000800000000000#64, .ok⟩ := by decide
theorem test_V97_boxcptr : eval ⟨0x10#5, 0x0000123456789ABC#64, 0⟩ = some ⟨0x7FFD123456789ABC#64, .ok⟩ := by decide
theorem test_V100_unboxcptr : eval ⟨0x11#5, 0x7FFCFFFFFFFFFFFF#64, 0⟩ = some ⟨0x0000FFFFFFFFFFFF#64, .ok⟩ := by decide
theorem test_V110_V112_reserved : eval ⟨0x07#5, 5, 0⟩ = some ⟨0, .illegalOp⟩ ∧
    eval ⟨0x1F#5, 0x7FF8000000000001#64, 0⟩ = some ⟨0, .illegalOp⟩ := by decide

/-! ### The 25 width classes: the table of R58 -/

/-- A row: `vw`, `numbZeros`, the offset width, `typePrefix(vw, 0)`, `TPMASK(vw)`. -/
def widthRows : List (Nat × Nat × Nat × Word × Word) :=
  [(0, 24, 26, 0x7FF8000004000000#64, 0xFFFFFFFFFFFFFFFF#64), (2, 23, 25, 0x7FF8000008000000#64, 0xFFFFFFFFFFFFFFFC#64),
    (4, 22, 24, 0x7FF8000010000000#64, 0xFFFFFFFFFFFFFFF0#64), (6, 21, 23, 0x7FF8000020000000#64, 0xFFFFFFFFFFFFFFC0#64),
    (8, 20, 22, 0x7FF8000040000000#64, 0xFFFFFFFFFFFFFF00#64)] ++
  [(10, 19, 21, 0x7FF8000080000000#64, 0xFFFFFFFFFFFFFC00#64), (12, 18, 20, 0x7FF8000100000000#64, 0xFFFFFFFFFFFFF000#64),
    (14, 17, 19, 0x7FF8000200000000#64, 0xFFFFFFFFFFFFC000#64), (16, 16, 18, 0x7FF8000400000000#64, 0xFFFFFFFFFFFF0000#64),
    (18, 15, 17, 0x7FF8000800000000#64, 0xFFFFFFFFFFFC0000#64)] ++
  [(20, 14, 16, 0x7FF8001000000000#64, 0xFFFFFFFFFFF00000#64), (22, 13, 15, 0x7FF8002000000000#64, 0xFFFFFFFFFFC00000#64),
    (24, 12, 14, 0x7FF8004000000000#64, 0xFFFFFFFFFF000000#64), (26, 11, 13, 0x7FF8008000000000#64, 0xFFFFFFFFFC000000#64),
    (28, 10, 12, 0x7FF8010000000000#64, 0xFFFFFFFFF0000000#64)] ++
  [(30, 9, 11, 0x7FF8020000000000#64, 0xFFFFFFFFC0000000#64), (32, 8, 10, 0x7FF8040000000000#64, 0xFFFFFFFF00000000#64),
    (34, 7, 9, 0x7FF8080000000000#64, 0xFFFFFFFC00000000#64), (36, 6, 8, 0x7FF8100000000000#64, 0xFFFFFFF000000000#64),
    (38, 5, 7, 0x7FF8200000000000#64, 0xFFFFFFC000000000#64)] ++
  [(40, 4, 6, 0x7FF8400000000000#64, 0xFFFFFF0000000000#64), (42, 3, 5, 0x7FF8800000000000#64, 0xFFFFFC0000000000#64),
    (44, 2, 4, 0x7FF9000000000000#64, 0xFFFFF00000000000#64), (46, 1, 3, 0x7FFA000000000000#64, 0xFFFFC00000000000#64),
    (48, 0, 2, 0x7FFC000000000000#64, 0xFFFF000000000000#64)]

theorem test_R58_sizes : ∀ r ∈ widthRows, numbZeros r.1 = r.2.1 ∧ offsetWidth r.1 = r.2.2.1 := by decide
theorem test_R58_tprefix : ∀ r ∈ widthRows,
    eval ⟨0x02#5, BitVec.ofNat 64 r.1, 0⟩ = some ⟨r.2.2.2.1, .ok⟩ := by decide
theorem test_R58_tpmask : ∀ r ∈ widthRows,
    eval ⟨0x03#5, BitVec.ofNat 64 r.1, 0⟩ = some ⟨r.2.2.2.2, .ok⟩ := by decide

/-! ### The ports, the pipeline and the host's notation -/

theorem test_R101_read_before_the_first_command : readY State.reset = .error .outputsUnspecified ∧
    readStatus (drive ⟨0, .domain⟩ State.reset) = .ok 2#2 := by decide

/-- Latency 2 (R105): two ISBOXED commands issued in cycles 0 and 1 come out in cycles 2 and 3. -/
theorem test_pipeline_latency_two :
    (pipeRun [some ⟨0x00#5, 0x7FF8000000000001#64, 0⟩, some ⟨0x00#5, 0, 0⟩, none, none] (pipeOfLatency 2)).1 =
      [none, none, some ⟨1, .ok⟩, some ⟨0, .ok⟩] := by decide

/-- P1's first line, `li t1, -5`. -/
theorem test_host_li : hostExec (.li 1 (-5)) hostReset =
    .next { hostReset with t := hostReset.t.set 1 0xFFFFFFFFFFFFFFFB#64, pc := 1 } := rfl

/-- P5's last command, `TPREFIX t10, t9, t4` with t9 = 49 and t4 = 2: 0 in t10 and `st` = 2. -/
theorem test_host_tprefix_rejected :
    hostExec (.tprefix 10 9 4) { hostReset with t := (hostReset.t.set 9 49#64).set 4 2#64 } =
      .next { t := ((hostReset.t.set 9 49#64).set 4 2#64).set 10 0#64, st := 2#64, pc := 1, halted := false, block := ⟨[], some ⟨0, .domain⟩⟩ } := rfl

/-! ### Witnesses: states and operands that meet the hypotheses of each statement together -/

/-- A state in which the host has presented TPREFIX(32, 8), then a reserved command, then TPMASK(49). -/
def presented : State := { commands := [⟨0x02#5, 32, 8⟩, ⟨0x12#5, 0, 0⟩, ⟨0x03#5, 49, 0⟩], outputs := none }

theorem witness_OnlyTheEncodingDecodes : decodeBits (encode (.tprefix 32 8)) = .legal (.tprefix 32 8) := by decide
theorem witness_ReservedOps : (0x07#5 = 0x07#5 ∨ 0x12#5 ≤ 0x07#5) ∧ (0x12#5 = 0x07#5 ∨ 0x12#5 ≤ 0x12#5) ∧
    (0x1F#5 = 0x07#5 ∨ 0x12#5 ≤ 0x1F#5) ∧ ¬ (0x11#5 = 0x07#5 ∨ 0x12#5 ≤ 0x11#5) := by decide
theorem witness_StepRunsTheDecodedInstruction :
    presented.commands = ⟨0x02#5, 32, 8⟩ :: [⟨0x12#5, 0, 0⟩, ⟨0x03#5, 49, 0⟩] ∧
    decode ⟨0x02#5, 32, 8⟩ = .legal (.tprefix 32 8) := by decide
theorem witness_PlacedTableWord : decodeTableWord 8 0x04 = some (.indpos 0 0) := by decide
theorem witness_StatusOfACommand_ok : step presented =
    .next ⟨[⟨0x12#5, 0, 0⟩, ⟨0x03#5, 49, 0⟩], some ⟨0x7FF8040800000000#64, .ok⟩⟩ := rfl
theorem witness_StatusOfACommand_illegalOp : step { presented with commands := [⟨0x12#5, 0, 0⟩] } =
    .next { commands := [], outputs := some ⟨0, .illegalOp⟩ } := rfl
theorem witness_StatusOfACommand_domain : step { presented with commands := [⟨0x03#5, 49, 0⟩] } =
    .next { commands := [], outputs := some ⟨0, .domain⟩ } := rfl
theorem witness_EveryStepKeepsOutputsLegal : outputsLegal presented = true ∧
    outputsLegal { presented with outputs := some ⟨5, .ok⟩ } = true ∧
    outputsLegal { presented with outputs := some ⟨5, .domain⟩ } = false := by decide
theorem witness_IgnoredBits32 : ∀ n, n < 32 → (0x2A#64).getLsbD n = (0xFFFFFFFF0000002A#64).getLsbD n := by decide
theorem witness_IgnoredBits1 : (3#64).getLsbD 0 = (1#64).getLsbD 0 := by decide
theorem witness_IgnoredBits48 : ∀ n, n < 48 → (0x7FFC00000000BEEF#64).getLsbD n = (0xBEEF#64).getLsbD n := by decide
theorem witness_StepWithoutCommand : State.reset.commands = [] ∧ presented.commands ≠ [] := by decide
theorem witness_Pipeline_before : 1 < [none, some (⟨0, 0, 0⟩ : Command), none].length ∧ 1 < 2 := by decide
theorem witness_Pipeline_after : 2 < [none, some (⟨0, 0, 0⟩ : Command), none].length ∧ 2 ≤ 2 := by decide

theorem witness_HasBoxedPattern : HasBoxedPattern 0x7FF8000000000001#64 ∧ HasBoxedPattern 0xFFFFFFFFFFFFFFFF#64 := by
  unfold HasBoxedPattern; decide
theorem witness_not_HasBoxedPattern : ¬ HasBoxedPattern 0x7FF8000000000000#64 ∧ ¬ HasBoxedPattern 0x7FF7FFFFFFFFFFFF#64 := by
  unfold HasBoxedPattern; decide
theorem witness_MarkedDouble : (0xFFF8000000000000#64).extractLsb' 51 12 = 0xFFF#12 := by decide
theorem witness_Indpos_two_boxed : HasBoxedPattern 0x7FF8000000000005#64 ∧ HasBoxedPattern 0xFFF8000000000005#64 ∧
    ∀ n, n ≤ 50 → (0x7FF8000000000005#64).getLsbD n = (0xFFF8000000000005#64).getLsbD n := by
  unfold HasBoxedPattern; decide
theorem witness_IeeeVerdicts : (0x7FEFFFFFFFFFFFFF#64).extractLsb' 52 11 ≠ 0x7FF#11 ∧
    0xFFF0000000000000#64 &&& 0x7FFFFFFFFFFFFFFF#64 = 0x7FF0000000000000#64 ∧
    (0x7FF0000000000001#64 ≤ 0xFFF0000000000001#64 &&& 0x7FFFFFFFFFFFFFFF#64 ∧
      0xFFF0000000000001#64 &&& 0x7FFFFFFFFFFFFFFF#64 ≤ 0x7FF7FFFFFFFFFFFF#64) ∧
    0xFFF8000000000000#64 &&& 0x7FFFFFFFFFFFFFFF#64 = 0x7FF8000000000000#64 ∧
    (0x7FF8000000000001#64 ≤ 0xFFFFFFFFFFFFFFFF#64 &&& 0x7FFFFFFFFFFFFFFF#64 ∧
      0xFFFFFFFFFFFFFFFF#64 &&& 0x7FFFFFFFFFFFFFFF#64 ≤ 0x7FFFFFFFFFFFFFFF#64) := by decide

theorem witness_InWidthDomain_low : InWidthDomain 0#64 := ⟨0, by decide, by decide⟩
theorem witness_InWidthDomain_high : InWidthDomain 48#64 := ⟨24, by decide, by decide⟩
theorem witness_not_InWidthDomain : ¬ InWidthDomain 49#64 ∧ ¬ InWidthDomain 50#64 ∧ ¬ InWidthDomain 31#64 ∧
    ¬ InWidthDomain 0xFFFFFFFFFFFFFFFF#64 := by
  refine ⟨?_, ?_, ?_, ?_⟩ <;> rintro ⟨k, hk, h⟩ <;> simp at h <;> omega

/-- Class 48 with its widest payload (BuiltWordFieldByField, TypeOffsetTruncatesSilently, TiwidthResult, TpwidthResult,
AlgebraInvertsTprefix, TypePrefixIsRecoveredFromAnyPayload). -/
theorem witness_built_word_48 : InWidthDomain 48#64 ∧ (0x0000FFFFFFFFFFFF#64).toNat < 2 ^ (48#64).toNat ∧
    Completes (.tprefix 48 5) presented 0x7FFD000000000000#64 := ⟨⟨24, by decide, by decide⟩, by decide, rfl⟩
/-- Class 0, with no payload bit; with the word above, two words of different classes (WidthClassesNeverCollide). -/
theorem witness_built_word_0 : InWidthDomain 0#64 ∧ (48#64 : Word) ≠ 0#64 ∧ (0#64).toNat < 2 ^ (0#64).toNat ∧
    Completes (.tprefix 0 0x4000000) presented 0x7FF8000004000000#64 := ⟨⟨0, by decide, by decide⟩, by decide, by decide, rfl⟩
theorem witness_truncated_offset : (1#64).toNat % 2 ^ 2 = (5#64).toNat % 2 ^ 2 := by decide
theorem witness_clz_of_nonzero : (1#64 : Word) ≠ 0#64 ∧ clz64 1#64 = 63 := by decide
theorem witness_pointer_bounds : (0x0000FFFFFFFFFFFF#64).toNat < 2 ^ 48 ∧ 2 ^ 48 ≤ (0x0001000000000000#64).toNat := by
  decide
theorem witness_host_halt : [HostInstr.halt][hostReset.pc]? = some .halt ∧ hostReset.halted = false := by decide
theorem witness_host_line : [HostInstr.li 1 (-5), .halt][hostReset.pc]? = some (.li 1 (-5)) := by decide

end Sys2Proof.Tests
end

section
/-! Proofs of the statements about the block as a whole (spec/00_scope.md). -/

namespace Sys2Proof.Machine

/-- To drive outputs is to set the outputs of the state, and nothing else of it (R10, R18). -/
theorem drive_eq (o : Output) (s : State) : drive o s = { s with outputs := some o } := rfl

/-- Settles O9, from what exec can do (`exec_drives`: completion, or the rejection of an invalid width, each with outputs
that do not depend on the state) and the frame of `drive`. -/
theorem everyOperationCompletesAndChangesOutputsOnly : Obligations.EveryOperationCompletesAndChangesOutputsOnly := by
  intro i
  obtain ⟨o, -, hexec⟩ := exec_drives i
  exact ⟨o, fun s => by rw [hexec s, drive_eq]⟩

end Sys2Proof.Machine
end

section
/-! Proofs of the statements about the step and its ports (spec/10_state.md). -/

namespace Sys2Proof.Machine

/-- Settles O8: `step_drives` gives each command the outputs that a step drives for it in every state, and the function
the statement asks for picks them, command by command. -/
theorem outputsAreAFunctionOfTheCommand : Obligations.OutputsAreAFunctionOfTheCommand := by
  choose ev _ hstep using step_drives
  exact ⟨ev, fun s c rest hc => hstep c s rest hc⟩

/-- The decoder reads `i` from a table word exactly where the command of that word decodes to `i` (log 5). -/
theorem decodeTableWord_eq_some_iff {nbits w : Nat} {i : Instr} :
    decodeTableWord nbits w = some i ↔ decode (Command.ofTableWord nbits w) = .legal i := by
  unfold decodeTableWord
  split <;> simp_all

/-- The host presents a command and the block samples it: a legal one runs at the ports as they stood before (R17). -/
theorem step_present_legal {c : Command} {i : Instr} (s : State) (hd : decode c = .legal i) :
    step (present c s) = exec i s :=
  step_legal (present_commands c s) hd

/-- Settles O6: a table word is placed by presenting its command, and that command decodes to `i`. -/
theorem placedTableWordRunsNext : Obligations.PlacedTableWordRunsNext := by
  intro s nbits w i hdec
  exact step_present_legal s (decodeTableWord_eq_some_iff.mp hdec)

/-- Settles O7: without a command the step is refused (`step_nil`), and with one it answers a next state
(`step_drives`). -/
theorem stepWithoutCommandIsRefused : Obligations.StepWithoutCommandIsRefused := by
  intro s
  refine ⟨fun hrefused => ?_, step_nil⟩
  cases hc : s.commands with
  | nil => rfl
  | cons c rest =>
    obtain ⟨o, -, hstep⟩ := step_drives c
    rw [hstep s rest hc] at hrefused
    cases hrefused

end Sys2Proof.Machine
end

section
/-! Proofs of the statements about the sampling of commands and their order (spec/20_memory.md). -/

namespace Sys2Proof.Machine

/-- Settles O5: the step samples the presented command and runs what it decodes to (`step_legal`). -/
theorem stepRunsTheDecodedInstruction : Obligations.StepRunsTheDecodedInstruction := by
  intro s c rest i hc hd
  exact step_legal hc hd

/-- `eval` of a command says what a step drives for it in every state that presents it, not only after reset
(R11, R19). -/
theorem step_drives_eval (c : Command) : ∃ out : Output, eval c = some out ∧
    ∀ s rest, s.commands = c :: rest → step s = .next { commands := rest, outputs := some out } := by
  obtain ⟨out, -, hstep⟩ := step_drives c
  refine ⟨out, ?_, hstep⟩
  rw [eval, hstep _ State.reset.commands (present_commands c State.reset), drives]

/-- A run takes any presented commands off the list, one a step, and goes on with those after them. -/
theorem run_takes_commands (before : List Command) : ∀ (o : Option Output), ∃ o' : Option Output,
    ∀ (n : Nat) (rest : List Command),
      Host.Core.run core (before.length + n) { commands := before ++ rest, outputs := o : State } =
        Host.Core.run core n { commands := rest, outputs := o' : State } := by
  induction before with
  | nil => exact fun o => ⟨o, fun n rest => by rw [List.length_nil, Nat.zero_add, List.nil_append]⟩
  | cons c before ih =>
    intro o
    obtain ⟨out, -, hhead⟩ := run_command c
    obtain ⟨o', htail⟩ := ih (some out)
    refine ⟨o', fun n rest => ?_⟩
    rw [List.length_cons, Nat.add_right_comm, List.cons_append, hhead, htail]

/-- Settles O15: the run takes off the commands before `c` (`run_takes_commands`), and whatever outputs they left, the
step that samples `c` drives `eval` of it (`step_drives_eval`). -/
theorem runDeliversTheLastCommandWhateverWentBefore : Obligations.RunDeliversTheLastCommandWhateverWentBefore := by
  intro before c rest o
  obtain ⟨out, heval, hstep⟩ := step_drives_eval c
  obtain ⟨o', hbefore⟩ := run_takes_commands before o
  refine ⟨out, heval, ?_⟩
  calc Host.Core.run core (before.length + 1) { commands := before ++ c :: rest, outputs := o : State }
      = Host.Core.run core 1 { commands := c :: rest, outputs := o' : State } := hbefore 1 (c :: rest)
    _ = Host.Core.run core 0 { commands := rest, outputs := some out : State } :=
        run_succ_of_next core (hstep { commands := c :: rest, outputs := o' } rest rfl)
    _ = .next { commands := rest, outputs := some out } := run_zero core _

end Sys2Proof.Machine
end

section
/-! Proofs of the statements about encoding and decoding (spec/30_encoding.md, R38 to R42). -/

namespace Sys2Proof

/-- The command an instruction is presented by decodes to it, operation by operation (the family `CommandDecodes`). -/
theorem decode_command (i : Instr) : decode i.command = .legal i := by
  cases i with
  | isboxed a b => exact Laws.CommandDecodes.isboxed a b
  | isdouble a b => exact Laws.CommandDecodes.isdouble a b
  | tprefix a b => exact Laws.CommandDecodes.tprefix a b
  | tpmask a b => exact Laws.CommandDecodes.tpmask a b
  | indpos a b => exact Laws.CommandDecodes.indpos a b
  | tiwidth a b => exact Laws.CommandDecodes.tiwidth a b
  | tpwidth a b => exact Laws.CommandDecodes.tpwidth a b
  | boxi32 a b => exact Laws.CommandDecodes.boxi32 a b
  | unboxi32 a b => exact Laws.CommandDecodes.unboxi32 a b
  | boxf32 a b => exact Laws.CommandDecodes.boxf32 a b
  | unboxf32 a b => exact Laws.CommandDecodes.unboxf32 a b
  | boxbool a b => exact Laws.CommandDecodes.boxbool a b
  | unboxbool a b => exact Laws.CommandDecodes.unboxbool a b
  | boxptr a b => exact Laws.CommandDecodes.boxptr a b
  | unboxptr a b => exact Laws.CommandDecodes.unboxptr a b
  | boxcptr a b => exact Laws.CommandDecodes.boxcptr a b
  | unboxcptr a b => exact Laws.CommandDecodes.unboxcptr a b

/-- Settles O2: the flat numbering loses nothing of the command (`Command.ofBits_toBits`), and the command decodes
to the instruction it presents (`decode_command`). -/
theorem decodeOfEncodeIsTheInstruction : Obligations.DecodeOfEncodeIsTheInstruction := by
  intro i
  rw [decodeBits, encode, Command.ofBits_toBits, decode_command]

/-- Settles O3: a legal decoding gives back the command (`command_of_decode`), whose number is the word it was read
from. -/
theorem onlyTheEncodingDecodesToTheInstruction : Obligations.OnlyTheEncodingDecodesToTheInstruction := by
  intro w i hdec
  rw [encode, command_of_decode hdec, Command.toBits_ofBits]

/-- Settles O1: the command of each row is the one that presents the row's instruction. -/
theorem decodeFollowsTheOpMap : Obligations.DecodeFollowsTheOpMap := by
  intro a b
  exact ⟨decode_command (.isboxed a b), decode_command (.isdouble a b), decode_command (.tprefix a b),
    decode_command (.tpmask a b), decode_command (.indpos a b), decode_command (.tiwidth a b),
    decode_command (.tpwidth a b), decode_command (.boxi32 a b), decode_command (.unboxi32 a b),
    decode_command (.boxf32 a b), decode_command (.unboxf32 a b), decode_command (.boxbool a b),
    decode_command (.unboxbool a b), decode_command (.boxptr a b), decode_command (.unboxptr a b),
    decode_command (.boxcptr a b), decode_command (.unboxcptr a b)⟩

/-- The reserved `op` values of R41, by number. -/
theorem reservedOp_iff_toNat (op : OpCode) : (op = 0x07#5 ∨ 0x12#5 ≤ op) ↔ (op.toNat = 7 ∨ 18 ≤ op.toNat) := by
  rw [← BitVec.toNat_inj, BitVec.le_def]
  rfl

/-- The decoder reserves exactly the `op` values R41 lists. -/
theorem decode_eq_reservedOp_iff (c : Command) : decode c = .reservedOp c.op ↔ (c.op = 0x07#5 ∨ 0x12#5 ≤ c.op) :=
  (decode_reserved_iff c).trans (reservedOp_iff_toNat c.op).symm

end Sys2Proof

namespace Sys2Proof.Machine

/-- Settles O4: the decoder reserves R41's values (`decode_eq_reservedOp_iff`), and a step on a reserved command raises
ILLEGAL_OP (`step_reserved`). -/
theorem reservedOpsAreExactlyThese : Obligations.ReservedOpsAreExactlyThese := by
  intro c rest o
  refine ⟨decode_eq_reservedOp_iff c, fun hop => ?_⟩
  rw [step_reserved rfl ((decode_eq_reservedOp_iff c).2 hop), raise_eq]

/-! ### The operand bits an operation reads (R40) -/

/-- Two instructions that complete with one result have one outcome. -/
theorem exec_eq_of_completes {i j : Instr} {s : State} {y : Word} (hi : Completes i s y) (hj : Completes j s y) :
    exec i s = exec j s :=
  hi.trans hj.symm

/-- Settles O11: `b` stands in none of the one-operand meanings, and a codec reads its `a` through `low32`, `bit0` or
`low48`, which depend on the listed bits alone (`low32_congr`, `low48_congr`). -/
theorem ignoredOperandBitsNeverMatter : Obligations.IgnoredOperandBitsNeverMatter := by
  refine ⟨fun a b b' s => ?_, fun a a' b b' s hbits => ?_, fun a a' b b' s hbit => ?_, fun a a' b b' s hbits => ?_⟩
  · exact ⟨rfl, rfl, rfl, rfl, rfl, rfl⟩
  · have h : low32 a' = low32 a := (low32_congr hbits).symm
    exact ⟨exec_eq_of_completes (completes_boxi32_iff.2 rfl) (completes_boxi32_iff.2 (by rw [h])),
      exec_eq_of_completes (completes_unboxi32_iff.2 rfl) (completes_unboxi32_iff.2 (by rw [h])),
      exec_eq_of_completes (completes_boxf32_iff.2 rfl) (completes_boxf32_iff.2 (by rw [h])),
      exec_eq_of_completes (completes_unboxf32_iff.2 rfl) (completes_unboxf32_iff.2 (by rw [h]))⟩
  · have h : bit0 a' = bit0 a := hbit.symm
    exact ⟨exec_eq_of_completes (completes_boxbool_iff.2 rfl) (completes_boxbool_iff.2 (by rw [h])),
      exec_eq_of_completes (completes_unboxbool_iff.2 rfl) (completes_unboxbool_iff.2 (by rw [h]))⟩
  · have h : low48 a' = low48 a := (low48_congr hbits).symm
    exact ⟨exec_eq_of_completes (completes_boxptr_iff.2 rfl) (completes_boxptr_iff.2 (by rw [h])),
      exec_eq_of_completes (completes_unboxptr_iff.2 rfl) (completes_unboxptr_iff.2 (by rw [h])),
      exec_eq_of_completes (completes_boxcptr_iff.2 rfl) (completes_boxcptr_iff.2 (by rw [h])),
      exec_eq_of_completes (completes_unboxcptr_iff.2 rfl) (completes_unboxcptr_iff.2 (by rw [h]))⟩

end Sys2Proof.Machine
end

section
/-! Proofs of the statements about the layout of words (spec/30_encoding.md, R45 to R48). -/

namespace Sys2Proof.Machine

/-! ### Boxed words, characterised and counted (R46) -/

theorem boolWord_eq_one_iff (v : Bool) : boolWord v = 1#64 ↔ v = true := by
  cases v <;> simp [boolWord]

theorem completes_isboxed_one_iff {w b : Word} {s : State} : Completes (.isboxed w b) s 1#64 ↔ HasBoxedPattern w := by
  rw [completes_isboxed_iff, boolWord_eq_one_iff, isBoxedWord_iff]

theorem completes_isdouble_one_iff {w b : Word} {s : State} :
    Completes (.isdouble w b) s 1#64 ↔ ¬ HasBoxedPattern w := by
  rw [completes_isdouble_iff, boolWord_eq_one_iff, Bool.not_eq_true', isBoxedWord_eq_false_iff]

/-- With bits 62..51 all ones, only bits 50..0 all zero make a double: one word for each sign. -/
theorem not_hasBoxedPattern_iff_of_marked {w : Word} (hmark : w.extractLsb' 51 12 = 0xFFF#12) :
    ¬ HasBoxedPattern w ↔ (w = 0x7FF8000000000000#64 ∨ w = 0xFFF8000000000000#64) := by
  have hw := w.isLt
  rw [← BitVec.toNat_inj, BitVec.extractLsb'_toNat, Nat.shiftRight_eq_div_pow, BitVec.toNat_ofNat] at hmark
  rw [hasBoxedPattern_iff_toNat, ← BitVec.toNat_inj, ← BitVec.toNat_inj, BitVec.toNat_ofNat, BitVec.toNat_ofNat]
  omega

/-- The boxed words as numbers: those above `NAN_VALUE` with bit 63 clear, and the same with bit 63 set. -/
def boxedNumbers : Finset Nat :=
  Finset.Ioo 0x7FF8000000000000 (2 ^ 63) ∪ Finset.Ioo 0xFFF8000000000000 (2 ^ 64)

theorem toNat_mem_boxedNumbers_iff (w : Word) : w.toNat ∈ boxedNumbers ↔ HasBoxedPattern w := by
  have hw := w.isLt
  rw [boxedNumbers, Finset.mem_union, Finset.mem_Ioo, Finset.mem_Ioo, hasBoxedPattern_iff_toNat]
  omega

theorem image_toNat_hasBoxedPattern : BitVec.toNat '' {w : Word | HasBoxedPattern w} = ↑boxedNumbers := by
  ext n
  constructor
  · rintro ⟨w, hw, rfl⟩
    exact (toNat_mem_boxedNumbers_iff w).2 hw
  · intro hn
    have hlt : n < 2 ^ 64 := by
      simp only [boxedNumbers, Finset.coe_union, Finset.coe_Ioo, Set.mem_union, Set.mem_Ioo] at hn
      omega
    have hword : (BitVec.ofNat 64 n).toNat = n := by rw [BitVec.toNat_ofNat, Nat.mod_eq_of_lt hlt]
    exact ⟨BitVec.ofNat 64 n, (toNat_mem_boxedNumbers_iff _).1 (hword.symm ▸ hn), hword⟩

theorem card_boxedNumbers : boxedNumbers.card = 2 * (2 ^ 51 - 1) := by
  have hdisj : Disjoint (Finset.Ioo 0x7FF8000000000000 (2 ^ 63)) (Finset.Ioo 0xFFF8000000000000 (2 ^ 64)) :=
    Finset.disjoint_left.2 fun n hlow hhigh => by
      rw [Finset.mem_Ioo] at hlow hhigh
      omega
  rw [boxedNumbers, Finset.card_union_of_disjoint hdisj, Nat.card_Ioo, Nat.card_Ioo]
  norm_num

theorem card_hasBoxedPattern : Nat.card {w : Word // HasBoxedPattern w} = 2 * (2 ^ 51 - 1) :=
  calc Nat.card {w : Word // HasBoxedPattern w}
      = {w : Word | HasBoxedPattern w}.ncard := Nat.card_coe_set_eq _
    _ = (BitVec.toNat '' {w : Word | HasBoxedPattern w}).ncard :=
        (Set.ncard_image_of_injective _ fun _ _ => BitVec.eq_of_toNat_eq).symm
    _ = 2 * (2 ^ 51 - 1) := by rw [image_toNat_hasBoxedPattern, Set.ncard_coe_finset, card_boxedNumbers]

/-- Settles O20: ISBOXED and ISDOUBLE decide the pattern, the marked doubles are two words, and the boxed words are
counted as numbers (`card_hasBoxedPattern`). -/
theorem boxedWordsCharacterisedAndCounted : Obligations.BoxedWordsCharacterisedAndCounted := by
  refine ⟨fun w b s => ⟨completes_isboxed_one_iff, completes_isdouble_one_iff, fun hmark => ?_⟩, fun b s => ?_⟩
  · exact completes_isdouble_one_iff.trans (not_hasBoxedPattern_iff_of_marked hmark)
  · rw [← card_hasBoxedPattern]
    exact Nat.card_congr (Equiv.subtypeEquivRight fun w => completes_isboxed_one_iff)

/-- A word with bits 62..51 all ones and a set bit among bits 50..0 is boxed. -/
theorem hasBoxedPattern_of_getLsbD {w : Word} (hmark : ∀ n, 51 ≤ n → n ≤ 62 → w.getLsbD n = true) {p : Nat}
    (hp : p ≤ 50) (hset : w.getLsbD p = true) : HasBoxedPattern w := by
  constructor
  · apply BitVec.eq_of_getLsbD_eq
    intro n hn
    rw [BitVec.getLsbD_extractLsb', hmark (51 + n) (by omega) (by omega), show 0xFFF#12 = BitVec.allOnes 12 from rfl,
      BitVec.getLsbD_allOnes, Bool.and_true]
  · intro hzero
    have hbit : (w.extractLsb' 0 51).getLsbD p = true := by
      rw [BitVec.getLsbD_extractLsb', Nat.zero_add, hset, Bool.and_true, decide_eq_true (by omega)]
    rw [hzero, BitVec.getLsbD_zero] at hbit
    exact Bool.false_ne_true hbit

/-! ### A word built by TPREFIX and a payload (R45, R55) -/

/-- The field sizes of a width class (R55), with the indicator at bit `50 - numbZeros`. -/
theorem field_sizes {v : Nat} (hv : v ≤ 48) (heven : v % 2 = 0) :
    numbZeros v = (48 - v) / 2 ∧ 50 - numbZeros v = 26 + v / 2 ∧ v + offsetWidth v = 50 - numbZeros v := by
  unfold offsetWidth numbZeros
  omega

/-- TPREFIX sets no bit of the payload field. -/
theorem getLsbD_typePrefix_of_lt {v : Nat} (hv : v ≤ 48) (off : Word) {n : Nat} (hn : n < v) :
    (typePrefix v off).getLsbD n = false := by
  have hind : n + numbZeros v ≠ 50 := by unfold numbZeros; omega
  rw [getLsbD_typePrefix hv]
  simp [hind, show ¬ 51 ≤ n by omega, show ¬ v ≤ n by omega]

section BuiltWord

variable {v : Nat} (hv : v ≤ 48) (heven : v % 2 = 0) (off : Word) {x : Word} (hx : x.toNat < 2 ^ v)
include hv heven hx

/-- R45: the bits of a built word, field by field. -/
theorem getLsbD_builtWord {n : Nat} (hn : n < 64) :
    (typePrefix v off ||| x).getLsbD n =
      if n = 63 then false
      else if 51 ≤ n then true
      else if 50 - numbZeros v + 1 ≤ n then false
      else if n = 50 - numbZeros v then true
      else if v ≤ n then off.getLsbD (n - v)
      else x.getLsbD n := by
  obtain ⟨-, hp, hfw⟩ := field_sizes hv heven
  rw [BitVec.getLsbD_or]
  rcases Nat.lt_or_ge n v with hpayload | habove
  · rw [getLsbD_typePrefix_of_lt hv off hpayload, Bool.false_or, if_neg, if_neg, if_neg, if_neg, if_neg] <;> omega
  · rw [getLsbD_payload hx habove, Bool.or_false, getLsbD_typePrefix hv, hfw]
    split_ifs <;> grind

/-- The indicator is the highest set bit among bits 50..0 of a built word. -/
theorem builtWord_highest :
    (typePrefix v off ||| x).getLsbD (26 + v / 2) = true ∧
      ∀ n, 26 + v / 2 < n → n ≤ 50 → (typePrefix v off ||| x).getLsbD n = false := by
  obtain ⟨-, hp, -⟩ := field_sizes hv heven
  constructor
  · rw [getLsbD_builtWord hv heven off hx (by omega), hp, if_neg, if_neg, if_neg, if_pos rfl] <;> omega
  · intro n hlow hhigh
    rw [getLsbD_builtWord hv heven off hx (by omega), hp, if_neg, if_neg, if_pos] <;> omega

theorem hasBoxedPattern_builtWord : HasBoxedPattern (typePrefix v off ||| x) := by
  refine hasBoxedPattern_of_getLsbD (fun n hlow hhigh => ?_) (by omega : 26 + v / 2 ≤ 50)
    (builtWord_highest hv heven off hx).1
  rw [getLsbD_builtWord hv heven off hx (by omega), if_neg (by omega), if_pos hlow]

/-- INDPOS of a built word gives the indicator of its width class. -/
theorem indicatorPosition_builtWord : indicatorPosition (typePrefix v off ||| x) = 26 + v / 2 := by
  obtain ⟨hset, habove⟩ := builtWord_highest hv heven off hx
  exact indicatorPosition_of_highest (hasBoxedPattern_builtWord hv heven off hx) (by omega) hset habove

end BuiltWord

/-- Settles O24: on a valid width TPREFIX completes with `typePrefix`, whose bits under a payload are those of
`getLsbD_builtWord`; the sizes are arithmetic on an even width of at most 48. -/
theorem builtWordFieldByField : Obligations.BuiltWordFieldByField := by
  intro vw off x y s hvw hx hy v zeros p
  obtain ⟨-, rfl⟩ := completes_tprefix_iff.1 hy
  obtain ⟨hv, heven⟩ := (inWidthDomain_iff_toNat vw).1 hvw
  refine ⟨fun n hn => getLsbD_builtWord hv heven off hx hn, ?_⟩
  omega

/-- Settles O31: different even widths have different indicators `26 + vw / 2` (R47), and INDPOS tells the words apart
by them. -/
theorem widthClassesNeverCollide : Obligations.WidthClassesNeverCollide := by
  intro vw vw' off off' x x' y y' s hvw hvw' hne hx hx' hy hy'
  obtain ⟨-, rfl⟩ := completes_tprefix_iff.1 hy
  obtain ⟨-, rfl⟩ := completes_tprefix_iff.1 hy'
  obtain ⟨hv, heven⟩ := (inWidthDomain_iff_toNat vw).1 hvw
  obtain ⟨hv', heven'⟩ := (inWidthDomain_iff_toNat vw').1 hvw'
  obtain ⟨hset, habove⟩ := builtWord_highest hv heven off hx
  obtain ⟨hset', habove'⟩ := builtWord_highest hv' heven' off' hx'
  have hpos := indicatorPosition_builtWord hv heven off hx
  have hpos' := indicatorPosition_builtWord hv' heven' off' hx'
  have hdiff : 26 + vw.toNat / 2 ≠ 26 + vw'.toNat / 2 := by
    have := mt BitVec.eq_of_toNat_eq hne
    omega
  refine ⟨_, _, hdiff, by omega, by omega, completes_indpos_iff.2 (by rw [hpos]),
    completes_indpos_iff.2 (by rw [hpos']), hset, habove, hset', habove', fun hsame => hdiff ?_⟩
  rw [← hpos, ← hpos', hsame]

/-! ### TPMASK takes the payload off again (R48) -/

theorem getLsbD_typePrefixMask (v : Nat) {n : Nat} (hn : n < 64) :
    (typePrefixMask v).getLsbD n = decide (v ≤ n) := by
  rw [typePrefixMask, show allOnes = BitVec.allOnes 64 from rfl, BitVec.getLsbD_shiftLeft, BitVec.getLsbD_allOnes,
    Bool.eq_iff_iff]
  simp only [Bool.and_eq_true, Bool.not_eq_true', decide_eq_true_iff, decide_eq_false_iff_not]
  omega

/-- The mask of a width class clears the payload and keeps the result of TPREFIX. -/
theorem builtWord_and_typePrefixMask {v : Nat} (hv : v ≤ 48) (off : Word) {x : Word} (hx : x.toNat < 2 ^ v) :
    (typePrefix v off ||| x) &&& typePrefixMask v = typePrefix v off := by
  apply BitVec.eq_of_getLsbD_eq
  intro n hn
  rw [BitVec.getLsbD_and, BitVec.getLsbD_or, getLsbD_typePrefixMask v hn]
  rcases Nat.lt_or_ge n v with hpayload | habove
  · rw [getLsbD_typePrefix_of_lt hv off hpayload, decide_eq_false (by omega), Bool.and_false]
  · rw [getLsbD_payload hx habove, Bool.or_false, decide_eq_true habove, Bool.and_true]

theorem zext64_toNat_lt (v : BitVec 32) : (zext64 v).toNat < 2 ^ 32 := by
  have hv := v.isLt
  rw [zext64, BitVec.zeroExtend, BitVec.toNat_setWidth]
  omega

/-- The int stencil is what TPREFIX gives for class 32 and offset 0, so the mask of class 32 recovers it. -/
theorem boxI32_and_mask (v : BitVec 32) : boxWord stencilI32 (zext64 v) &&& 0xFFFFFFFF00000000#64 = stencilI32 :=
  builtWord_and_typePrefixMask (v := 32) (by omega) 0#64 (zext64_toNat_lt v)

/-- The float stencil is what TPREFIX gives for class 32 and offset 1, so the mask of class 32 recovers it. -/
theorem boxF32_and_mask (v : BitVec 32) : boxWord stencilF32 (zext64 v) &&& 0xFFFFFFFF00000000#64 = stencilF32 :=
  builtWord_and_typePrefixMask (v := 32) (by omega) 1#64 (zext64_toNat_lt v)

/-- Settles O39: the class's mask recovers the result of TPREFIX, and the masked int and float words are their two
different stencils. -/
theorem typePrefixIsRecoveredFromAnyPayload : Obligations.TypePrefixIsRecoveredFromAnyPayload := by
  refine ⟨fun vw off x y b s hvw hx hy => ?_, fun x x' b s => ?_⟩
  · obtain ⟨-, rfl⟩ := completes_tprefix_iff.1 hy
    exact ⟨_, completes_tpmask_iff.2 ⟨hvw, rfl⟩,
      builtWord_and_typePrefixMask ((inWidthDomain_iff_toNat vw).1 hvw).1 off hx⟩
  · have hint := boxI32_and_mask (low32 x)
    have hfloat := boxF32_and_mask (low32 x')
    refine ⟨_, _, completes_boxi32_iff.2 rfl, completes_boxf32_iff.2 rfl, hint, hfloat, fun hsame => ?_⟩
    rw [hsame, hfloat] at hint
    exact absurd hint (by decide)

end Sys2Proof.Machine
end

section
/-! Proofs of the statements about host programs (spec/30_encoding.md, R43 and R44). -/

namespace Sys2Proof.Machine

/-- A block command of a host program answers the next host state, with `eval` of the command in `td`, `st` and the
block's outputs (R43). -/
theorem hostCommand_eq (c : Command) (td : Fin 16) (h : HostState) : ∃ o : Output, eval c = some o ∧
    hostCommand c td h = .next (hostSet td o.y
      { h with st := (statusCode o.status).zeroExtend 64, block := { h.block with outputs := some o } }) := by
  obtain ⟨o, heval, hstep⟩ := step_drives_eval c
  exact ⟨o, heval, by rw [hostCommand, hstep _ h.block.commands (present_commands c h.block)]; rfl⟩

theorem statusCode_zeroExtend_toNat (st : Status) : ((statusCode st).zeroExtend 64).toNat = (statusCode st).toNat := by
  cases st <;> rfl

theorem hostSet_get_same (td : Fin 16) (v : Word) (h : HostState) : (hostSet td v h).t[td] = v := by
  rw [hostSet_get, if_pos rfl]

theorem hostSet_get_of_ne {td i : Fin 16} (hi : i ≠ td) (v : Word) (h : HostState) :
    (hostSet td v h).t[i] = h.t[i] := by
  rw [hostSet_get, if_neg hi]

/-- What a block command changes of the host: `td`, `st`, the position and the block's outputs, and nothing else. -/
theorem hostCommand_writes (c : Command) (td : Fin 16) (h : HostState) : ∃ (o : Output) (h' : HostState),
    eval c = some o ∧ hostCommand c td h = .next h' ∧ h'.t[td] = o.y ∧
    h'.st.toNat = (statusCode o.status).toNat ∧ (∀ i : Fin 16, i ≠ td → h'.t[i] = h.t[i]) ∧ h'.pc = h.pc + 1 ∧
    h'.halted = h.halted ∧ h'.block = { h.block with outputs := some o } := by
  obtain ⟨o, heval, hnext⟩ := hostCommand_eq c td h
  exact ⟨o, _, heval, hnext, hostSet_get_same td _ _, statusCode_zeroExtend_toNat o.status,
    fun i hi => hostSet_get_of_ne hi _ _, rfl, rfl, rfl⟩

/-- Settles O41: both lines are block commands of the host (`hostCommand_writes`), a one-operand line with `b` driven
as 0. -/
theorem hostCommandWritesResultAndStatus : Obligations.HostCommandWritesResultAndStatus := by
  intro h op td ta tb
  exact ⟨hostCommand_writes ⟨op, h.t[ta], 0#64⟩ td h, hostCommand_writes ⟨0x02#5, h.t[ta], h.t[tb]⟩ td h⟩

theorem hostExec_beqz (v : HostValue) (label : Nat) (h : HostState) :
    hostExec (.beqz v label) h = .next { h with pc := if hostRead h v = 0#64 then label else h.pc + 1 } := by
  simp [hostExec, hostBranch]

theorem hostExec_bnez (v : HostValue) (label : Nat) (h : HostState) :
    hostExec (.bnez v label) h = .next { h with pc := if hostRead h v ≠ 0#64 then label else h.pc + 1 } := by
  simp [hostExec, hostBranch]

/-- A program that is not ended runs the line it stands at. -/
theorem hostStep_line {lines : List HostInstr} {h : HostState} {i : HostInstr} (hline : lines[h.pc]? = some i)
    (hrun : h.halted = false) : hostStep lines h = hostExec i h := by
  simp [hostStep, hline, hrun]

theorem hostStep_halted {lines : List HostInstr} {h : HostState} (hend : h.halted = true) :
    hostStep lines h = .next h := by
  simp [hostStep, hend]

/-- The pseudo-operations that set a value are each one `hostSet` of `td`. -/
theorem hostExec_set (h : HostState) (td ta tb : Fin 16) (imm : Int) :
    ∀ p ∈ [(HostInstr.li td imm, BitVec.ofInt 64 imm), (.and td ta tb, h.t[ta] &&& h.t[tb]),
      (.or td ta tb, h.t[ta] ||| h.t[tb]), (.xor td ta tb, h.t[ta] ^^^ h.t[tb]),
      (.addi td ta imm, h.t[ta] + BitVec.ofInt 64 imm)],
    hostExec p.1 h = .next (hostSet td p.2 h) := by
  simp [hostExec]

/-- Settles O42: a value-setting line is one `hostSet` (`hostExec_set`), a branch changes the position alone, and after
`halt` a step changes nothing. -/
theorem hostPseudoOperations : Obligations.HostPseudoOperations := by
  intro h td ta tb imm v label lines
  refine ⟨fun i r hir => ?_, hostExec_beqz v label h, hostExec_bnez v label h,
    fun i hline hrun => hostStep_line hline hrun, fun hline hrun => ?_, fun j => ?_, rfl⟩
  · exact ⟨_, hostExec_set h td ta tb imm (i, r) hir, hostSet_get_same td r h, fun j hj => hostSet_get_of_ne hj r h,
      rfl, rfl, rfl, rfl⟩
  · exact ⟨{ h with halted := true }, hostStep_line hline hrun, hostStep_halted rfl⟩
  · simp [hostReset]

end Sys2Proof.Machine
end

section
/-! Proofs of the statements about the classifier (spec/40_classifier.md). -/

namespace Sys2Proof.Machine

/-! ### The compare that decides (R50) -/

/-- R46's pattern is R50's compare of the word without its sign bit. -/
theorem hasBoxedPattern_iff_lt (w : Word) :
    HasBoxedPattern w ↔ 0x7FF8000000000000#64 < (w &&& 0x7FFFFFFFFFFFFFFF#64) :=
  (isBoxedWord_iff w).symm.trans decide_eq_true_iff

theorem not_hasBoxedPattern_iff_le (w : Word) :
    ¬ HasBoxedPattern w ↔ (w &&& 0x7FFFFFFFFFFFFFFF#64) ≤ 0x7FF8000000000000#64 := by
  rw [hasBoxedPattern_iff_lt, BitVec.not_lt]

/-- Clearing the sign bit forgets a flip of it. -/
theorem flipSign_and_boxedMask (w : Word) : (w ^^^ 0x8000000000000000#64) &&& boxedMask = w &&& boxedMask := by
  apply BitVec.eq_of_toNat_eq
  rw [boxedMask_and_toNat, boxedMask_and_toNat, BitVec.toNat_xor, Nat.xor_mod_two_pow]
  exact Nat.xor_zero _

theorem isBoxedWord_flipSign (w : Word) : isBoxedWord (w ^^^ 0x8000000000000000#64) = isBoxedWord w := by
  rw [isBoxedWord, isBoxedWord, flipSign_and_boxedMask]

/-! ### Which of the two verdicts ISBOXED and ISDOUBLE give -/

theorem boolWord_eq_zero_iff (v : Bool) : boolWord v = 0#64 ↔ v = false := by
  cases v <;> simp [boolWord]

theorem completes_isboxed_zero_iff {w b : Word} {s : State} :
    Completes (.isboxed w b) s 0#64 ↔ ¬ HasBoxedPattern w := by
  rw [completes_isboxed_iff, boolWord_eq_zero_iff, isBoxedWord_eq_false_iff]

theorem completes_isdouble_zero_iff {w b : Word} {s : State} :
    Completes (.isdouble w b) s 0#64 ↔ HasBoxedPattern w := by
  rw [completes_isdouble_iff, boolWord_eq_zero_iff, Bool.not_eq_false', isBoxedWord_iff]

/-- A word at most `NAN_VALUE` without its sign bit is a double to both operations. -/
theorem completes_double {w : Word} (h : (w &&& 0x7FFFFFFFFFFFFFFF#64) ≤ 0x7FF8000000000000#64) (b : Word)
    (s : State) : Completes (.isdouble w b) s 1#64 ∧ Completes (.isboxed w b) s 0#64 :=
  have hdouble := (not_hasBoxedPattern_iff_le w).2 h
  ⟨completes_isdouble_one_iff.2 hdouble, completes_isboxed_zero_iff.2 hdouble⟩

/-- A word above `NAN_VALUE` without its sign bit is boxed to both operations. -/
theorem completes_boxed {w : Word} (h : 0x7FF8000000000000#64 < (w &&& 0x7FFFFFFFFFFFFFFF#64)) (b : Word)
    (s : State) : Completes (.isdouble w b) s 0#64 ∧ Completes (.isboxed w b) s 1#64 :=
  have hboxed := (hasBoxedPattern_iff_lt w).2 h
  ⟨completes_isdouble_zero_iff.2 hboxed, completes_isboxed_one_iff.2 hboxed⟩

/-- A boxed word has the exponent of the IEEE NaNs and infinities, bits 62..52 all ones. -/
theorem HasBoxedPattern.exponent {w : Word} (h : HasBoxedPattern w) : w.extractLsb' 52 11 = 0x7FF#11 := by
  rw [hasBoxedPattern_iff_toNat] at h
  rw [← BitVec.toNat_inj, BitVec.extractLsb'_toNat, Nat.shiftRight_eq_div_pow, BitVec.toNat_ofNat]
  omega

/-- Settles O21: a word without the exponent of the NaNs is not boxed (`HasBoxedPattern.exponent`), and each other row
is a range on one side of `NAN_VALUE`. -/
theorem classifierVerdictsOnIeeePatterns : Obligations.ClassifierVerdictsOnIeeePatterns := by
  intro w b s m
  refine ⟨fun hexp => ?_, fun hinf => ?_, fun hsignalling => ?_, fun hnan => ?_, fun hpayload => ?_⟩
  · exact completes_double ((not_hasBoxedPattern_iff_le w).1 (mt HasBoxedPattern.exponent hexp)) b s
  · exact completes_double (BitVec.le_trans (BitVec.le_of_eq hinf) (by decide)) b s
  · exact completes_double (BitVec.le_trans hsignalling.2 (by decide)) b s
  · exact completes_double (BitVec.le_of_eq hnan) b s
  · exact completes_boxed (BitVec.not_le.1 fun hle => absurd (BitVec.le_trans hpayload.1 hle) (by decide)) b s

/-- Settles O18: the compare splits the words into those of `completes_boxed` and of `completes_double`, and it does not
see the sign bit (`isBoxedWord_flipSign`). -/
theorem isboxedResult : Obligations.IsboxedResult := by
  intro a b s
  refine ⟨?_, ?_, (completes_double (by decide) b s).2, (completes_double (by decide) b s).2,
    completes_isboxed_one_iff.2⟩
  · split
    case isTrue hboxed => exact (completes_boxed hboxed b s).2
    case isFalse hdouble => exact (completes_double (BitVec.not_lt.1 hdouble) b s).2
  · exact exec_eq_of_completes (completes_isboxed_iff.2 rfl) (completes_isboxed_iff.2 (by rw [isBoxedWord_flipSign]))

/-- The results of ISDOUBLE and ISBOXED are those of a Boolean and of its negation. -/
theorem boolWord_not_add_boolWord (v : Bool) : boolWord (!v) + boolWord v = 1#64 := by
  cases v <;> rfl

/-- Settles O19: ISDOUBLE negates the compare of ISBOXED (`boolWord_not_add_boolWord`), and each corner case is a word
at most `NAN_VALUE` without its sign bit. -/
theorem isdoubleResult : Obligations.IsdoubleResult := by
  intro a b s
  have corner {w : Word} (h : (w &&& 0x7FFFFFFFFFFFFFFF#64) ≤ 0x7FF8000000000000#64) :
      Completes (.isdouble w b) s 1#64 := (completes_double h b s).1
  refine ⟨?_, ?_, corner (by decide), corner (by decide), corner (by decide), corner (by decide),
    corner (by decide), corner (by decide)⟩
  · split
    case isTrue hboxed => exact (completes_boxed hboxed b s).1
    case isFalse hdouble => exact corner (BitVec.not_lt.1 hdouble)
  · exact ⟨_, _, completes_isdouble_iff.2 rfl, completes_isboxed_iff.2 rfl, boolWord_not_add_boolWord _⟩

end Sys2Proof.Machine
end

section
/-! Proofs of the statements about the width domain, TPREFIX and TPMASK (spec/41_type_prefix_algebra.md, R54 to R59). -/

namespace Sys2Proof.Machine

/-! ### The width domain decides between completion and DOMAIN (R56) -/

/-- R56's compare: at most 48 as a 64-bit word, with bit 0 clear. -/
theorem inWidthDomain_iff_le (a : Word) : InWidthDomain a ↔ a ≤ 48#64 ∧ a.getLsbD 0 = false := by
  rw [← validWidth_iff, validWidth, Bool.and_eq_true, decide_eq_true_iff, Bool.not_eq_true']

theorem rejects_tprefix_iff {a b : Word} {s : State} : Rejects (.tprefix a b) s .domain ↔ ¬ InWidthDomain a :=
  ⟨fun hrej hvalid => (completes_tprefix_iff.2 ⟨hvalid, rfl⟩).not_rejects (by decide) hrej,
    fun hinvalid => execTprefix_invalid hinvalid b s⟩

theorem rejects_tpmask_iff {a b : Word} {s : State} : Rejects (.tpmask a b) s .domain ↔ ¬ InWidthDomain a :=
  ⟨fun hrej hvalid => (completes_tpmask_iff.2 ⟨hvalid, rfl⟩).not_rejects (by decide) hrej,
    fun hinvalid => execTpmask_invalid hinvalid b s⟩

/-- Settles O23: each operation rejects exactly outside the domain (`rejects_tprefix_iff`, `rejects_tpmask_iff`) and
completes exactly inside it (`completes_tprefix_iff`, `completes_tpmask_iff`). -/
theorem widthDomainIsExact : Obligations.WidthDomainIsExact := by
  intro a b s
  refine ⟨inWidthDomain_iff_le a, rejects_tprefix_iff, rejects_tpmask_iff, ?_, ?_⟩
  · exact ⟨fun ⟨_, hy⟩ => (completes_tprefix_iff.1 hy).1, fun hvalid => ⟨_, completes_tprefix_iff.2 ⟨hvalid, rfl⟩⟩⟩
  · exact ⟨fun ⟨_, hy⟩ => (completes_tpmask_iff.1 hy).1, fun hvalid => ⟨_, completes_tpmask_iff.2 ⟨hvalid, rfl⟩⟩⟩

/-- Settles O26: on a valid width TPMASK completes with `typePrefixMask`, the shift of the rule, whose bits are those of
`getLsbD_typePrefixMask`. -/
theorem tpmaskResult : Obligations.TpmaskResult := by
  intro a b s
  have completes_mask {vw m : Word} (hvw : InWidthDomain vw) (hm : typePrefixMask vw.toNat = m) :
      Completes (.tpmask vw b) s m := completes_tpmask_iff.2 ⟨hvw, hm⟩
  refine ⟨fun hvalid => ⟨completes_mask hvalid rfl, fun y hy n hn => ?_⟩, rejects_tpmask_iff.2,
    completes_mask ⟨0, by decide, rfl⟩ (by decide), completes_mask ⟨24, by decide, rfl⟩ (by decide),
    completes_mask ⟨16, by decide, rfl⟩ (by decide)⟩
  obtain ⟨-, rfl⟩ := completes_tpmask_iff.1 hy
  exact getLsbD_typePrefixMask a.toNat hn

/-! ### The three fields of a TPREFIX result (R54, R57) -/

/-- TPREFIX never sets the sign bit. -/
theorem getLsbD_typePrefix_sign {v : Nat} (hv : v ≤ 48) (off : Word) : (typePrefix v off).getLsbD 63 = false := by
  have hfield : v + offsetWidth v ≤ 63 := by unfold offsetWidth numbZeros; omega
  rw [getLsbD_typePrefix hv]
  simp [show ¬ 63 < v + offsetWidth v by omega, show 63 + numbZeros v ≠ 50 by omega]

/-- Settles O22: on a valid width TPREFIX completes with `typePrefix`, the rule's three fields ORed, which has no sign
bit (`getLsbD_typePrefix_sign`) and no payload bit (`getLsbD_typePrefix_of_lt`). -/
theorem tprefixResult : Obligations.TprefixResult := by
  intro a b s
  refine ⟨fun hvalid => ?_, rejects_tprefix_iff.2, completes_tprefix_iff.2 ⟨⟨16, by decide, rfl⟩, by decide⟩⟩
  have hv : a.toNat ≤ 48 := ((inWidthDomain_iff_toNat a).1 hvalid).1
  exact ⟨typePrefix a.toNat b, completes_tprefix_iff.2 ⟨hvalid, rfl⟩, rfl, getLsbD_typePrefix_sign hv b,
    fun n hn => getLsbD_typePrefix_of_lt hv b hn⟩

/-- Masking a word to its `m` low bits is taking it modulo `2 ^ m`. -/
theorem toNat_and_lowMask (x : Word) {m : Nat} (hm : m < 64) :
    (x &&& ((1#64 <<< m) - 1#64)).toNat = x.toNat % 2 ^ m := by
  apply Nat.eq_of_testBit_eq
  intro n
  rw [BitVec.testBit_toNat, BitVec.getLsbD_and, getLsbD_lowMask m n hm, Nat.testBit_mod_two_pow, BitVec.testBit_toNat,
    Bool.and_comm]

theorem offsetWidth_bounds (v : Nat) : 2 ≤ offsetWidth v ∧ offsetWidth v ≤ 26 := by
  unfold offsetWidth numbZeros
  omega

theorem offsetWidth_lt (v : Nat) : offsetWidth v < 64 :=
  Nat.lt_of_le_of_lt (offsetWidth_bounds v).2 (by decide)

/-- The TPREFIX result depends on the offset modulo `2 ^ fw` alone (R57). -/
theorem typePrefix_congr (v : Nat) {off off' : Word}
    (h : off'.toNat % 2 ^ offsetWidth v = off.toNat % 2 ^ offsetWidth v) : typePrefix v off' = typePrefix v off := by
  have hfw := offsetWidth_lt v
  have hmask : off' &&& ((1#64 <<< offsetWidth v) - 1#64) = off &&& ((1#64 <<< offsetWidth v) - 1#64) := by
    apply BitVec.eq_of_toNat_eq
    rw [toNat_and_lowMask off' hfw, toNat_and_lowMask off hfw, h]
  rw [typePrefix, typePrefix, offsetField, offsetField, hmask]

/-- The field above the payload of a built word holds the offset modulo `2 ^ fw`. -/
theorem builtWord_offset {v : Nat} (hv : v ≤ 48) (heven : v % 2 = 0) (off : Word) {x : Word} (hx : x.toNat < 2 ^ v) :
    (typePrefix v off ||| x).toNat / 2 ^ v % 2 ^ offsetWidth v = off.toNat % 2 ^ offsetWidth v := by
  obtain ⟨-, hp, hfw⟩ := field_sizes hv heven
  apply Nat.eq_of_testBit_eq
  intro n
  rw [Nat.testBit_mod_two_pow, Nat.testBit_mod_two_pow, Nat.testBit_div_two_pow, BitVec.testBit_toNat,
    BitVec.testBit_toNat]
  by_cases hn : n < offsetWidth v
  · rw [getLsbD_builtWord hv heven off hx (by omega), if_neg (by omega), if_neg (by omega), if_neg (by omega),
      if_neg (by omega), if_pos (by omega), Nat.add_sub_cancel]
  · rw [decide_eq_false hn, Bool.false_and, Bool.false_and]

/-- Settles O25: the stored field is that of a built word with the payload 0 (`builtWord_offset`), and the result reads
the offset modulo `2 ^ fw` alone (`typePrefix_congr`). -/
theorem typeOffsetTruncatesSilently : Obligations.TypeOffsetTruncatesSilently := by
  intro vw off y s hvw hy fw
  obtain ⟨-, rfl⟩ := completes_tprefix_iff.1 hy
  obtain ⟨hv, heven⟩ := (inWidthDomain_iff_toNat vw).1 hvw
  constructor
  · have hfield := builtWord_offset hv heven off (x := 0#64) (Nat.two_pow_pos _)
    rwa [BitVec.or_zero] at hfield
  · exact fun off' hoff => completes_tprefix_iff.2 ⟨hvw, typePrefix_congr vw.toNat hoff⟩

end Sys2Proof.Machine
end

section
/-! Proofs of the statements about INDPOS, TIWIDTH and TPWIDTH (spec/41_type_prefix_algebra.md, R60 to R63). -/

namespace Sys2Proof.Machine

/-! ### The indicator position (R60, R61) -/

/-- The indicator position of a boxed word is its highest set bit among bits 50..0. -/
theorem indicatorPosition_highest {w : Word} (h : HasBoxedPattern w) :
    indicatorPosition w ≤ 50 ∧ w.getLsbD (indicatorPosition w) = true ∧
      ∀ n, indicatorPosition w < n → n ≤ 50 → w.getLsbD n = false := by
  obtain ⟨p, hp, hset, habove⟩ := exists_highest h
  rw [indicatorPosition_of_highest h hp hset habove]
  exact ⟨hp, hset, habove⟩

theorem indicatorPosition_le_or_eq (w : Word) : indicatorPosition w ≤ 50 ∨ indicatorPosition w = 64 := by
  by_cases h : HasBoxedPattern w
  · exact .inl (indicatorPosition_highest h).1
  · exact .inr (indicatorPosition_double h)

/-- The indicator position of a boxed word depends on bits 50..0 alone. -/
theorem indicatorPosition_congr {w w' : Word} (h : HasBoxedPattern w) (h' : HasBoxedPattern w')
    (hbits : ∀ n, n ≤ 50 → w.getLsbD n = w'.getLsbD n) : indicatorPosition w = indicatorPosition w' := by
  obtain ⟨hp, hset, habove⟩ := indicatorPosition_highest h'
  exact indicatorPosition_of_highest h hp ((hbits _ hp).trans hset)
    fun n hlow hhigh => (hbits n hhigh).trans (habove n hlow hhigh)

/-- The bits of `NAN_VALUE` with bit `n` set. -/
theorem getLsbD_nanValue_or_bit {n : Nat} (hn : n < 64) (k : Nat) :
    (nanValue ||| (1#64 <<< n)).getLsbD k = (decide (51 ≤ k ∧ k ≤ 62) || decide (k = n)) := by
  rw [BitVec.getLsbD_or, getLsbD_nanValue, ← BitVec.twoPow_eq, BitVec.getLsbD_twoPow, decide_eq_true hn,
    Bool.true_and]
  simp only [eq_comm]

/-- `NAN_VALUE` with one of bits 50..0 set is boxed and has its indicator there. -/
theorem indicatorPosition_nanValue_or_bit {n : Nat} (hn : n ≤ 50) :
    indicatorPosition (nanValue ||| (1#64 <<< n)) = n := by
  have hbit := getLsbD_nanValue_or_bit (show n < 64 by omega)
  have hset : (nanValue ||| (1#64 <<< n)).getLsbD n = true := by rw [hbit]; simp
  refine indicatorPosition_of_highest (hasBoxedPattern_of_getLsbD (fun k hlow hhigh => ?_) hn hset) hn hset ?_
  · rw [hbit]; simp [hlow, hhigh]
  · intro k hlow hhigh
    rw [hbit]
    simp [show ¬ 51 ≤ k by omega, show k ≠ n by omega]

/-- Settles O27: INDPOS completes with the indicator position, which is the highest set bit of a boxed word
(`indicatorPosition_highest`) and 64 for a double, and reads bits 50..0 alone of boxed words. -/
theorem indposResult : Obligations.IndposResult := by
  intro a b s
  have completes_at {w : Word} {p : Nat} (h : indicatorPosition w = p) :
      Completes (.indpos w b) s (BitVec.ofNat 64 p) := completes_indpos_iff.2 (by rw [h])
  refine ⟨fun hboxed => ?_, fun hdouble => completes_at (indicatorPosition_double hdouble), ?_,
    fun n hn => completes_at (indicatorPosition_nanValue_or_bit hn), completes_at (by decide),
    completes_at (by decide), completes_at (by decide), completes_at (by decide)⟩
  · obtain ⟨hp, hset, habove⟩ := indicatorPosition_highest hboxed
    exact ⟨_, hp, completes_at rfl, hset, habove⟩
  · exact fun a' hboxed hboxed' hbits =>
      exec_eq_of_completes (completes_at (indicatorPosition_congr hboxed hboxed' hbits)) (completes_at rfl)

/-! ### The two widths as words (R62, R63) -/

theorem wrap64_natCast (n : Nat) : wrap64 (n : Int) = BitVec.ofNat 64 n := BitVec.ofInt_natCast 64 n

/-- `wrap_64` keeps an integer that is a signed 64-bit value. -/
theorem toInt_wrap64 {n : Int} (hlow : -2 ^ 63 ≤ n) (hhigh : n < 2 ^ 63) : (wrap64 n).toInt = n :=
  BitVec.toInt_ofInt_eq_self (by decide) hlow hhigh

theorem typeIndicatorWidth_double {w : Word} (h : ¬ HasBoxedPattern w) : typeIndicatorWidth w = -25 := by
  rw [typeIndicatorWidth, indicatorPosition_double h]; rfl

theorem typePrefixWidth_double {w : Word} (h : ¬ HasBoxedPattern w) : typePrefixWidth w = 76 := by
  rw [typePrefixWidth, indicatorPosition_double h]; rfl

/-- Of a boxed word the indicator width is a natural number, 3 to 103. -/
theorem typeIndicatorWidth_boxed {w : Word} (h : HasBoxedPattern w) :
    ∃ n : Nat, typeIndicatorWidth w = n ∧ 3 ≤ n ∧ n ≤ 103 := by
  have hp := (indicatorPosition_highest h).1
  exact ⟨2 * (51 - indicatorPosition w) + 1, by unfold typeIndicatorWidth; omega, by omega, by omega⟩

theorem typePrefixWidth_eq (w : Word) : typePrefixWidth w = 2 * (indicatorPosition w : Int) - 52 := by
  unfold typePrefixWidth
  omega

section BuiltWord

variable {v : Nat} (hv : v ≤ 48) (heven : v % 2 = 0) (off : Word) {x : Word} (hx : x.toNat < 2 ^ v)
include hv heven hx

theorem typeIndicatorWidth_builtWord : typeIndicatorWidth (typePrefix v off ||| x) = ((51 - v : Nat) : Int) := by
  rw [typeIndicatorWidth, indicatorPosition_builtWord hv heven off hx]
  omega

theorem typePrefixWidth_builtWord : typePrefixWidth (typePrefix v off ||| x) = (v : Int) := by
  rw [typePrefixWidth_eq, indicatorPosition_builtWord hv heven off hx]
  omega

end BuiltWord

/-- TIWIDTH of a word built from class `vw` (R62). -/
theorem completes_tiwidth_builtWord {vw x : Word} (hvw : InWidthDomain vw) (hx : x.toNat < 2 ^ vw.toNat) (off b : Word)
    (s : State) : Completes (.tiwidth (typePrefix vw.toNat off ||| x) b) s (BitVec.ofNat 64 (51 - vw.toNat)) := by
  obtain ⟨hv, heven⟩ := (inWidthDomain_iff_toNat vw).1 hvw
  rw [completes_tiwidth_iff, typeIndicatorWidth_builtWord hv heven off hx, wrap64_natCast]

/-- TPWIDTH of a word built from class `vw` (R63). -/
theorem completes_tpwidth_builtWord {vw x : Word} (hvw : InWidthDomain vw) (hx : x.toNat < 2 ^ vw.toNat) (off b : Word)
    (s : State) : Completes (.tpwidth (typePrefix vw.toNat off ||| x) b) s vw := by
  obtain ⟨hv, heven⟩ := (inWidthDomain_iff_toNat vw).1 hvw
  rw [completes_tpwidth_iff, typePrefixWidth_builtWord hv heven off hx, wrap64_natCast, BitVec.ofNat_toNat,
    BitVec.setWidth_eq]

/-- Settles O28: TIWIDTH wraps the formula at INDPOS's own position, a natural number for a boxed word
(`typeIndicatorWidth_boxed`), -25 for a double, and `51 - vw` for a built word. -/
theorem tiwidthResult : Obligations.TiwidthResult := by
  intro a b s
  refine ⟨⟨indicatorPosition a, completes_indpos_iff.2 rfl, indicatorPosition_le_or_eq a, completes_tiwidth_iff.2 rfl⟩,
    fun hboxed => ?_, fun hdouble => ?_, fun vw off x y hvw hx hy => ?_, completes_tiwidth_iff.2 (by decide)⟩
  · obtain ⟨n, hwidth, hlow, hhigh⟩ := typeIndicatorWidth_boxed hboxed
    refine ⟨BitVec.ofNat 64 n, completes_tiwidth_iff.2 (by rw [hwidth, wrap64_natCast]), ?_⟩
    rw [BitVec.toNat_ofNat]
    omega
  · exact completes_tiwidth_iff.2 (by rw [typeIndicatorWidth_double hdouble]; rfl)
  · obtain ⟨-, rfl⟩ := completes_tprefix_iff.1 hy
    exact completes_tiwidth_builtWord hvw hx off b s

/-- Settles O29: TPWIDTH wraps the formula at INDPOS's own position, that is `2 p - 52` (`typePrefixWidth_eq`), a signed
64-bit value for a boxed word, 76 for a double, and `vw` for a built word. -/
theorem tpwidthResult : Obligations.TpwidthResult := by
  intro a b s
  refine ⟨⟨indicatorPosition a, completes_indpos_iff.2 rfl, indicatorPosition_le_or_eq a, completes_tpwidth_iff.2 rfl,
      congrArg wrap64 (typePrefixWidth_eq a)⟩,
    fun hboxed => ?_, fun hdouble => ?_, fun vw off x y hvw hx hy => ?_, completes_tpwidth_iff.2 (by decide)⟩
  · have hp := (indicatorPosition_highest hboxed).1
    refine ⟨indicatorPosition a, _, completes_indpos_iff.2 rfl, hp, completes_tpwidth_iff.2 rfl, ?_⟩
    rw [typePrefixWidth_eq, toInt_wrap64 (by omega) (by omega)]
    omega
  · exact completes_tpwidth_iff.2 (by rw [typePrefixWidth_double hdouble]; rfl)
  · obtain ⟨-, rfl⟩ := completes_tprefix_iff.1 hy
    exact completes_tpwidth_builtWord hvw hx off b s

end Sys2Proof.Machine
end

section
/-! Proofs of the statements about the algebra as a whole (spec/41_type_prefix_algebra.md, R64 and R65). -/

namespace Sys2Proof.Machine

/-- Settles O30: each law is the one about a built word, its pattern and position, its two widths, its mask and its
offset field (`builtWord_offset`, read by a shift and a mask). -/
theorem algebraInvertsTprefix : Obligations.AlgebraInvertsTprefix := by
  intro vw off x s hvw hx
  obtain ⟨hv, heven⟩ := (inWidthDomain_iff_toNat vw).1 hvw
  refine ⟨_, _, completes_tprefix_iff.2 ⟨hvw, rfl⟩, completes_tpmask_iff.2 ⟨hvw, rfl⟩,
    completes_isboxed_one_iff.2 (hasBoxedPattern_builtWord hv heven off hx),
    completes_indpos_iff.2 (by rw [indicatorPosition_builtWord hv heven off hx]),
    completes_tiwidth_builtWord hvw hx off _ s, completes_tpwidth_builtWord hvw hx off _ s,
    builtWord_and_typePrefixMask hv off hx, (toNat_and_lowMask _ (offsetWidth_lt _)).trans ?_⟩
  rw [BitVec.toNat_ushiftRight, Nat.shiftRight_eq_div_pow]
  exact builtWord_offset hv heven off hx

/-! ### The fields of a TPREFIX result are disjoint (R65) -/

theorem nanValue_and_indicatorBit (v : Nat) : nanValue &&& indicatorBit v = 0#64 := by
  apply BitVec.eq_of_getLsbD_eq
  intro n _
  rw [BitVec.getLsbD_and, getLsbD_nanValue, getLsbD_indicatorBit, ← Bool.decide_and, BitVec.getLsbD_zero]
  exact decide_eq_false (by omega)

/-- The offset field is below the indicator and the NaN marker. -/
theorem prefixMarks_and_offsetField {v : Nat} (hv : v ≤ 48) (heven : v % 2 = 0) (off : Word) :
    (nanValue ||| indicatorBit v) &&& offsetField v off = 0#64 := by
  obtain ⟨-, hp, hfw⟩ := field_sizes hv heven
  apply BitVec.eq_of_getLsbD_eq
  intro n _
  rw [BitVec.getLsbD_and, BitVec.getLsbD_or, getLsbD_nanValue, getLsbD_indicatorBit, getLsbD_offsetField hv,
    BitVec.getLsbD_zero]
  by_cases hn : n < v + offsetWidth v
  · rw [decide_eq_false (show ¬ (51 ≤ n ∧ n ≤ 62) by omega), decide_eq_false (show ¬ n + numbZeros v = 50 by omega),
      Bool.or_false, Bool.false_and]
  · rw [decide_eq_false (show ¬ (v ≤ n ∧ n < v + offsetWidth v) by omega), Bool.false_and, Bool.and_false]

/-- ORing disjoint words adds their numbers. -/
theorem toNat_or_of_disjoint {x y : Word} (h : x &&& y = 0#64) : (x ||| y).toNat = x.toNat + y.toNat := by
  rw [← BitVec.add_eq_or_of_and_eq_zero x y h, BitVec.toNat_add_of_and_eq_zero h]

theorem toNat_typePrefix {v : Nat} (hv : v ≤ 48) (heven : v % 2 = 0) (off : Word) :
    (typePrefix v off).toNat = nanValue.toNat + (indicatorBit v).toNat + (offsetField v off).toNat := by
  rw [typePrefix, toNat_or_of_disjoint (prefixMarks_and_offsetField hv heven off),
    toNat_or_of_disjoint (nanValue_and_indicatorBit v)]

/-! ### The leading-zero count of a nonzero word (R9) -/

/-- A set bit bounds the leading zeros: the zeros counted are all above it. -/
theorem leadingZeros_add_lt {x : Word} {k n : Nat} (hset : x.getLsbD k = true) (hk : k < n) :
    leadingZeros x n + k < n := by
  induction n with
  | zero => omega
  | succ n ih =>
    rw [leadingZeros]
    split
    case isTrue => omega
    case isFalse hclear =>
      have hne : k ≠ n := fun heq => hclear (heq ▸ hset)
      have := ih (by omega)
      omega

theorem clz64_add_lt {x : Word} {k : Nat} (hset : x.getLsbD k = true) : clz64 x + k < 64 :=
  leadingZeros_add_lt hset (BitVec.lt_of_getLsbD hset)

theorem exists_getLsbD_of_ne_zero {x : Word} (hx : x ≠ 0#64) : ∃ k, x.getLsbD k = true := by
  by_contra hnone
  exact hx (BitVec.eq_of_getLsbD_eq fun k _ => by simpa using fun hset => hnone ⟨k, hset⟩)

/-- Settles O32: the shifts are bounded by the width, the fields of TPREFIX add up (`toNat_typePrefix`), the widths
are those of a position of at most 50 or of 64, and a set bit bounds `clz64` (`clz64_add_lt`). -/
theorem algebraArithmeticStaysInRange : Obligations.AlgebraArithmeticStaysInRange := by
  refine ⟨fun vw off hvw => ?_, fun w => ?_, fun x => ⟨leadingZeros_le x 64, fun hx => ?_⟩⟩
  · obtain ⟨hv, heven⟩ := (inWidthDomain_iff_toNat vw).1 hvw
    obtain ⟨hlow, hhigh⟩ := offsetWidth_bounds vw.toNat
    exact ⟨by unfold numbZeros; omega, hlow, hhigh, hv, toNat_typePrefix hv heven off⟩
  · have hp := indicatorPosition_le_or_eq w
    rw [typePrefixWidth_eq, typeIndicatorWidth]
    omega
  · obtain ⟨k, hk⟩ := exists_getLsbD_of_ne_zero hx
    have hlt : clz64 x < 64 := by have := clz64_add_lt hk; omega
    refine ⟨by omega, getLsbD_leadingZeros x 64 hlt, fun n hn => ?_⟩
    by_contra hset
    have := clz64_add_lt (Bool.eq_true_of_not_eq_false hset)
    omega

end Sys2Proof.Machine
end

section
/-! Proofs of the statements about the payload codecs (spec/42_payload_codecs.md, R67 to R84). -/

namespace Sys2Proof.Machine

/-! ### The operands the codecs read, as bits and numbers (R68 to R76) -/

theorem getLsbD_low32 (a : Word) (n : Nat) : (low32 a).getLsbD n = (decide (n < 32) && a.getLsbD n) := by
  rw [low32, BitVec.getLsbD_extractLsb', Nat.zero_add]

@[simp] theorem low32_zext64 (v : BitVec 32) : low32 (zext64 v) = v := by
  apply BitVec.eq_of_getLsbD_eq
  intro n hn
  rw [getLsbD_low32, zext64, BitVec.zeroExtend, BitVec.getLsbD_setWidth, decide_eq_true hn,
    decide_eq_true (show n < 64 by omega), Bool.true_and, Bool.true_and]

@[simp] theorem low32_sext64 (v : BitVec 32) : low32 (sext64 v) = v := by
  apply BitVec.eq_of_getLsbD_eq
  intro n hn
  rw [getLsbD_low32, sext64, BitVec.getLsbD_signExtend, if_pos hn, decide_eq_true hn,
    decide_eq_true (show n < 64 by omega), Bool.true_and, Bool.true_and]

/-- Words with one low half agree on bits 31..0. -/
theorem getLsbD_eq_of_low32_eq {a a' : Word} (h : low32 a = low32 a') {n : Nat} (hn : n < 32) :
    a.getLsbD n = a'.getLsbD n := by
  have hbit : (low32 a).getLsbD n = (low32 a').getLsbD n := by rw [h]
  rwa [getLsbD_low32, getLsbD_low32, decide_eq_true hn, Bool.true_and, Bool.true_and] at hbit

/-- `sext_64` fills bits 63..32 with the operand's sign bit. -/
theorem getLsbD_sext64_low32_of_le (a : Word) {n : Nat} (hlow : 32 ≤ n) (hn : n < 64) :
    (sext64 (low32 a)).getLsbD n = a.getLsbD 31 := by
  rw [sext64, BitVec.getLsbD_signExtend, decide_eq_true hn, Bool.true_and, if_neg (by omega),
    BitVec.msb_eq_getLsbD_last, getLsbD_low32]
  rfl

theorem low48_toNat (a : Word) : (low48 a).toNat = a.toNat % 2 ^ 48 := by
  rw [low48, BitVec.toNat_and]
  exact Nat.and_two_pow_sub_one_eq_mod a.toNat 48

theorem low48_toNat_lt (a : Word) : (low48 a).toNat < 2 ^ 48 := by
  rw [low48_toNat]
  exact Nat.mod_lt _ (Nat.two_pow_pos 48)

/-- A pointer is its own 48 low bits exactly where it is below `2^48`. -/
theorem low48_eq_self_iff (p : Word) : low48 p = p ↔ p.toNat < 2 ^ 48 := by
  rw [← BitVec.toNat_inj, low48_toNat]
  omega

@[simp] theorem low48_low48 (a : Word) : low48 (low48 a) = low48 a :=
  (low48_eq_self_iff _).2 (low48_toNat_lt a)

/-- Words with one pointer operand agree on bits 47..0. -/
theorem getLsbD_eq_of_low48_eq {a a' : Word} (h : low48 a = low48 a') {n : Nat} (hn : n < 48) :
    a.getLsbD n = a'.getLsbD n := by
  have hbit : (low48 a).getLsbD n = (low48 a').getLsbD n := by rw [h]
  rwa [getLsbD_low48, getLsbD_low48, decide_eq_true hn, Bool.true_and, Bool.true_and] at hbit

/-- The mask of the pointer codecs is an extraction of 48 bits. -/
theorem low48_eq_zeroExtend (a : Word) : low48 a = (a.extractLsb' 0 48).zeroExtend 64 := by
  apply BitVec.eq_of_getLsbD_eq
  intro n hn
  rw [getLsbD_low48, BitVec.zeroExtend, BitVec.getLsbD_setWidth, BitVec.getLsbD_extractLsb', decide_eq_true hn,
    Bool.true_and, Nat.zero_add]

/-- The operand of the bool codec is an extraction of one bit. -/
theorem boolWord_bit0_eq_zeroExtend (a : Word) : boolWord (bit0 a) = (a.extractLsb' 0 1).zeroExtend 64 := by
  have hone : a.extractLsb' 0 1 = BitVec.ofBool (bit0 a) := by
    apply BitVec.eq_of_getLsbD_eq
    intro n hn
    obtain rfl : n = 0 := by omega
    simp [bit0]
  rw [hone]
  cases bit0 a <;> rfl

theorem boolWord_toNat_lt (v : Bool) : (boolWord v).toNat < 2 ^ 2 := by
  cases v <;> decide

/-! ### An unbox operation reads the payload of a boxed word, whatever its stencil (R67) -/

theorem low32_boxWord (stencil payload : Word) :
    low32 (boxWord stencil payload) = low32 stencil ||| low32 payload :=
  BitVec.extractLsb'_or

theorem low48_boxWord (stencil payload : Word) :
    low48 (boxWord stencil payload) = low48 stencil ||| low48 payload :=
  BitVec.and_or_distrib_right

@[simp] theorem low32_boxI32 (v : BitVec 32) : low32 (boxWord stencilI32 (zext64 v)) = v := by
  rw [low32_boxWord, low32_zext64, show low32 stencilI32 = 0#32 from rfl, BitVec.zero_or]

@[simp] theorem low32_boxF32 (v : BitVec 32) : low32 (boxWord stencilF32 (zext64 v)) = v := by
  rw [low32_boxWord, low32_zext64, show low32 stencilF32 = 0#32 from rfl, BitVec.zero_or]

@[simp] theorem bit0_boxBool (v : Bool) : bit0 (boxWord stencilBool (boolWord v)) = v := by
  cases v <;> rfl

@[simp] theorem low48_boxPtr (a : Word) : low48 (boxWord stencilPtr (low48 a)) = low48 a := by
  rw [low48_boxWord, low48_low48, show low48 stencilPtr = 0#64 from rfl, BitVec.zero_or]

@[simp] theorem low48_boxCptr (a : Word) : low48 (boxWord stencilCptr (low48 a)) = low48 a := by
  rw [low48_boxWord, low48_low48, show low48 stencilCptr = 0#64 from rfl, BitVec.zero_or]

/-! ### The bits above the payload are the stencil's (R67) -/

theorem extractLsb'_payload {x : Word} {k : Nat} (hx : x.toNat < 2 ^ k) (len : Nat) :
    x.extractLsb' k len = 0#len := by
  apply BitVec.eq_of_getLsbD_eq
  intro n _
  rw [BitVec.getLsbD_extractLsb', getLsbD_payload hx (Nat.le_add_right k n), Bool.and_false, BitVec.getLsbD_zero]

theorem extractLsb'_boxWord {payload : Word} {k : Nat} (hpay : payload.toNat < 2 ^ k) (stencil : Word) (len : Nat) :
    (boxWord stencil payload).extractLsb' k len = stencil.extractLsb' k len := by
  rw [boxWord, BitVec.extractLsb'_or, extractLsb'_payload hpay, BitVec.or_zero]

/-! ### Round trips and mismatched decodes -/

/-- Settles O37: unboxing reads back the payload that boxing put on the stencil (`low32_boxI32` and its like), and the
pointer codecs' payload is the pointer exactly below `2^48` (`low48_eq_self_iff`). -/
theorem unboxOfBoxGivesTheDatumBack : Obligations.UnboxOfBoxGivesTheDatumBack := by
  intro b b' s s'
  refine ⟨fun i => ?_, fun f => ?_, fun x hx => ?_, fun p => ?_⟩
  · refine ⟨_, completes_boxi32_iff.2 rfl, completes_unboxi32_iff.2 ?_, low32_sext64 i⟩
    rw [low32_boxI32]
    exact congrArg sext64 (low32_zext64 i)
  · refine ⟨_, completes_boxf32_iff.2 rfl, completes_unboxf32_iff.2 ?_⟩
    rw [low32_boxF32]
    exact congrArg zext64 (low32_zext64 f)
  · refine ⟨_, completes_boxbool_iff.2 rfl, completes_unboxbool_iff.2 ?_⟩
    rw [bit0_boxBool]
    rcases hx with rfl | rfl <;> rfl
  · refine ⟨_, _, completes_boxptr_iff.2 rfl, completes_boxcptr_iff.2 rfl, fun hlow => ?_, fun hhigh => ?_⟩
    · have hself := (low48_eq_self_iff p).2 hlow
      exact ⟨completes_unboxptr_iff.2 ((low48_boxPtr p).trans hself),
        completes_unboxcptr_iff.2 ((low48_boxCptr p).trans hself)⟩
    · exact ⟨completes_unboxptr_iff.2 (low48_boxPtr p), completes_unboxcptr_iff.2 (low48_boxCptr p),
        mt (low48_eq_self_iff p).1 (Nat.not_lt.2 hhigh)⟩

/-- Settles O40: an unbox operation extracts its bits from any word, the boxed ones among them, and in a mismatched
decode those bits are the other codec's payload. -/
theorem mismatchedDecodeIsBitExtraction : Obligations.MismatchedDecodeIsBitExtraction := by
  intro x b s
  refine ⟨_, _, _, _, _, completes_boxi32_iff.2 rfl, completes_boxf32_iff.2 rfl, completes_boxbool_iff.2 rfl,
    completes_boxptr_iff.2 rfl, completes_boxcptr_iff.2 rfl, fun w _ => ?_, ?_, ?_, ?_, ?_⟩
  · exact ⟨completes_unboxi32_iff.2 rfl, completes_unboxf32_iff.2 rfl,
      completes_unboxbool_iff.2 (boolWord_bit0_eq_zeroExtend w), completes_unboxptr_iff.2 (low48_eq_zeroExtend w),
      completes_unboxcptr_iff.2 (low48_eq_zeroExtend w)⟩
  · exact completes_unboxf32_iff.2 (congrArg zext64 (low32_boxI32 (low32 x)))
  · exact completes_unboxi32_iff.2 (congrArg sext64 (low32_boxF32 (low32 x)))
  · exact completes_unboxptr_iff.2 ((low48_boxCptr x).trans (low48_eq_zeroExtend x))
  · exact completes_unboxcptr_iff.2 ((low48_boxPtr x).trans (low48_eq_zeroExtend x))

/-! ### A boxed word is a word built from the stencil's class (R82) -/

/-- A box operation that puts a payload of `vw` bits on what TPREFIX gives for `vw` and `off` yields a built word,
so all that holds of built words holds of its results. -/
theorem boxesUnder_of_payload {box : Word → Word → Instr} {payload : Word → Word} {vw off stencil : Word} {p : Nat}
    (hvw : InWidthDomain vw) (hstencil : typePrefix vw.toNat off = stencil) (hp : 26 + vw.toNat / 2 = p)
    (hbox : ∀ a b s, Completes (box a b) s (boxWord stencil (payload a)))
    (hpay : ∀ a, (payload a).toNat < 2 ^ vw.toNat) : BoxesUnder box vw off stencil p := by
  subst hstencil hp
  obtain ⟨hv, heven⟩ := (inWidthDomain_iff_toNat vw).1 hvw
  have hindpos {x : Word} (hx : x.toNat < 2 ^ vw.toNat) :
      indicatorPosition (typePrefix vw.toNat off ||| x) = 26 + vw.toNat / 2 :=
    indicatorPosition_builtWord hv heven off hx
  intro a b s
  refine ⟨_, _, hbox a b s, completes_isboxed_one_iff.2 (hasBoxedPattern_builtWord hv heven off (hpay a)), ?_,
    completes_tpmask_iff.2 ⟨hvw, rfl⟩, builtWord_and_typePrefixMask hv off (hpay a),
    completes_indpos_iff.2 (congrArg _ (hindpos (hpay a))), completes_tprefix_iff.2 ⟨hvw, rfl⟩,
    completes_indpos_iff.2 ?_⟩
  · exact (getLsbD_builtWord hv heven off (hpay a) (by decide)).trans (if_pos rfl)
  · have hself := hindpos (x := 0#64) (Nat.two_pow_pos _)
    rw [BitVec.or_zero] at hself
    rw [hself]

theorem inWidthDomain_2 : InWidthDomain 2#64 := ⟨1, by decide, rfl⟩
theorem inWidthDomain_32 : InWidthDomain 32#64 := ⟨16, by decide, rfl⟩
theorem inWidthDomain_48 : InWidthDomain 48#64 := ⟨24, by decide, rfl⟩

/-- R73: the bool codec boxes under what TPREFIX gives for class 2 and offset 0. -/
theorem boxesUnder_boxbool : BoxesUnder .boxbool 2#64 0#64 0x7FF8000008000000#64 27 :=
  boxesUnder_of_payload inWidthDomain_2 (by decide) rfl (fun _ _ _ => completes_boxbool_iff.2 rfl)
    fun a => boolWord_toNat_lt (bit0 a)

/-- Settles O38: each stencil is what TPREFIX gives for its class and offset, and each payload fits in the width
of the class (`boxesUnder_of_payload`). -/
theorem everyBoxResultIsBoxedUnderItsStencil : Obligations.EveryBoxResultIsBoxedUnderItsStencil := by
  refine ⟨?_, ?_, boxesUnder_boxbool, ?_, ?_⟩
  · exact boxesUnder_of_payload inWidthDomain_32 (by decide) rfl (fun _ _ _ => completes_boxi32_iff.2 rfl)
      fun a => zext64_toNat_lt (low32 a)
  · exact boxesUnder_of_payload inWidthDomain_32 (by decide) rfl (fun _ _ _ => completes_boxf32_iff.2 rfl)
      fun a => zext64_toNat_lt (low32 a)
  · exact boxesUnder_of_payload inWidthDomain_48 (by decide) rfl (fun _ _ _ => completes_boxptr_iff.2 rfl)
      low48_toNat_lt
  · exact boxesUnder_of_payload inWidthDomain_48 (by decide) rfl (fun _ _ _ => completes_boxcptr_iff.2 rfl)
      low48_toNat_lt

/-! ### The codecs one by one -/

/-- Settles O33: the low half of a BOXI32 result is the operand's (`low32_boxI32`) and the high half is the int
stencil's (`extractLsb'_boxWord`); UNBOXI32 sign-extends the low half. -/
theorem intCodecResults : Obligations.IntCodecResults := by
  intro a b s
  refine ⟨⟨_, completes_boxi32_iff.2 rfl, rfl, low32_boxI32 (low32 a), ?_⟩,
    completes_boxi32_iff.2 (by decide), completes_boxi32_iff.2 (by decide), completes_boxi32_iff.2 (by decide),
    ⟨_, completes_unboxi32_iff.2 rfl, rfl, fun n hn => ?_, fun n hlow hn => getLsbD_sext64_low32_of_le a hlow hn⟩,
    completes_unboxi32_iff.2 (by decide), completes_unboxi32_iff.2 (by decide), completes_unboxi32_iff.2 (by decide)⟩
  · exact extractLsb'_boxWord (zext64_toNat_lt (low32 a)) stencilI32 32
  · exact getLsbD_eq_of_low32_eq (low32_sext64 (low32 a)) hn

/-- Settles O34: unboxing reads back the 32 bits that boxing put on the float stencil (`low32_boxF32`). -/
theorem floatCodecIsBitExact : Obligations.FloatCodecIsBitExact := by
  intro a b b' s
  refine ⟨_, zext64 (low32 a), completes_boxf32_iff.2 rfl, rfl,
    extractLsb'_boxWord (zext64_toNat_lt (low32 a)) stencilF32 32, completes_unboxf32_iff.2 rfl,
    completes_unboxf32_iff.2 (by rw [low32_boxF32]), fun n hn => ?_, fun n hn => ?_,
    completes_boxf32_iff.2 (by decide), completes_unboxf32_iff.2 (by decide)⟩
  · exact getLsbD_eq_of_low32_eq (low32_zext64 (low32 a)) hn
  · exact getLsbD_payload (zext64_toNat_lt (low32 a)) hn

/-- The two results of BOXBOOL (R73). -/
theorem boxBool_eq (v : Bool) :
    boxWord stencilBool (boolWord v) = if v then 0x7FF8000008000001#64 else 0x7FF8000008000000#64 := by
  cases v <;> rfl

/-- R74: above bit 0, a boxed bool has no bit set below its indicator, bit 27. -/
theorem getLsbD_boxBool_eq_false (v : Bool) {n : Nat} (hlow : 1 ≤ n) (hhigh : n ≤ 26) :
    (boxWord stencilBool (boolWord v)).getLsbD n = false := by
  rw [boxBool_eq]
  cases v <;> decide +revert

/-- Settles O35: a boxed bool is built from class 2 (`boxesUnder_boxbool`) and is one of two words (`boxBool_eq`);
UNBOXBOOL reads bit 0 alone. -/
theorem boolCodecResults : Obligations.BoolCodecResults := by
  intro a b s
  obtain ⟨y, m, hbox, -, -, hmask, hprefix, hindpos, htprefix, -⟩ := boxesUnder_boxbool a b s
  obtain rfl := completes_boxbool_iff.1 hbox
  have htpwidth := completes_tpwidth_builtWord inWidthDomain_2 (boolWord_toNat_lt (bit0 a)) 0#64 b s
  refine ⟨⟨_, hbox, boxBool_eq (bit0 a), htpwidth, hindpos, fun n hlow hhigh => ?_, ?_, m, hmask, hprefix⟩, htprefix,
    completes_boxbool_iff.2 (by decide), completes_boxbool_iff.2 (by decide), completes_unboxbool_iff.2 rfl,
    completes_unboxbool_iff.2 (by decide), completes_unboxbool_iff.2 (by decide)⟩
  · exact getLsbD_boxBool_eq_false (bit0 a) (by omega) hhigh
  · exact getLsbD_boxBool_eq_false (bit0 a) (by decide) (by decide)

/-- Settles O36: boxing and unboxing keep the 48 low bits (`low48_boxPtr`, `low48_boxCptr`, `low48_low48`), and the
bits above them are the stencil's, or 0 in an unboxed word. -/
theorem pointerCodecResults : Obligations.PointerCodecResults := by
  intro a b s
  have hpay := low48_toNat_lt a
  refine ⟨⟨_, _, low48 a, completes_boxptr_iff.2 rfl, completes_boxcptr_iff.2 rfl, completes_unboxptr_iff.2 rfl,
      completes_unboxcptr_iff.2 rfl, fun n hn => getLsbD_eq_of_low48_eq (low48_boxPtr a) hn,
      extractLsb'_boxWord hpay stencilPtr 16, fun n hn => getLsbD_eq_of_low48_eq (low48_boxCptr a) hn,
      extractLsb'_boxWord hpay stencilCptr 16, fun n hn => getLsbD_eq_of_low48_eq (low48_low48 a) hn,
      extractLsb'_payload hpay 16⟩,
    completes_boxptr_iff.2 (by decide), completes_boxptr_iff.2 (by decide), completes_boxptr_iff.2 (by decide),
    completes_unboxptr_iff.2 (by decide), completes_boxcptr_iff.2 (by decide), completes_boxcptr_iff.2 (by decide),
    completes_unboxcptr_iff.2 (by decide)⟩

end Sys2Proof.Machine
end

section
/-! Proofs of the statements about the status and its exceptions (spec/60_exceptions.md, R85 to R92). -/

namespace Sys2Proof.Machine

/-! ### Outputs carry `y = 0` beside a status other than OK (R86, R87) -/

theorem outputsLegal_of_outputs {s : State} {o : Output} (ho : s.outputs = some o)
    (hlegal : o.status = .ok ∨ o.y = 0#64) : outputsLegal s = true := by
  simpa [outputsLegal, ho] using hlegal

/-- A step that answers a next state has driven outputs, with `y = 0` beside any status but OK. -/
theorem outputs_of_step {s t : State} (hstep : step s = .next t) :
    ∃ o : Output, t.outputs = some o ∧ (o.status = .ok ∨ o.y = 0#64) := by
  cases hc : s.commands with
  | nil =>
    rw [step_nil hc] at hstep
    cases hstep
  | cons c rest =>
    obtain ⟨o, hlegal, hdrives⟩ := step_drives c
    rw [hdrives s rest hc] at hstep
    cases hstep
    exact ⟨o, rfl, hlegal⟩

/-- Settles O14: whatever the outputs were before, the step drives new ones, and those are legal (`outputs_of_step`). -/
theorem everyStepKeepsOutputsLegal : Obligations.EveryStepKeepsOutputsLegal := by
  intro s t _ hstep
  obtain ⟨o, ho, hlegal⟩ := outputs_of_step hstep
  exact outputsLegal_of_outputs ho hlegal

/-- Settles O13: at reset no outputs have been driven (`reset_outputs`). -/
theorem resetOutputsAreLegal : Obligations.ResetOutputsAreLegal := by
  rw [Obligations.ResetOutputsAreLegal, outputsLegal, reset_outputs]

/-! ### Which status a command gives (R87, R90) -/

/-- The commands that R56 rejects: TPREFIX and TPMASK on a width out of the domain. -/
def RejectedForWidth (c : Command) : Prop := (c.op = 0x02#5 ∨ c.op = 0x03#5) ∧ ¬ InWidthDomain c.a

/-- R90: only TPREFIX and TPMASK check `a`, so a legal operation completes unless its width is rejected. -/
theorem exec_completes_or_rejects (i : Instr) (s : State) :
    (¬ RejectedForWidth i.command ∧ ∃ y, Completes i s y) ∨ (RejectedForWidth i.command ∧ Rejects i s .domain) := by
  cases i with
  | tprefix a b =>
    by_cases hvalid : InWidthDomain a
    · exact .inl ⟨fun hrej => hrej.2 hvalid, _, completes_tprefix_iff.2 ⟨hvalid, rfl⟩⟩
    · exact .inr ⟨⟨.inl rfl, hvalid⟩, rejects_tprefix_iff.2 hvalid⟩
  | tpmask a b =>
    by_cases hvalid : InWidthDomain a
    · exact .inl ⟨fun hrej => hrej.2 hvalid, _, completes_tpmask_iff.2 ⟨hvalid, rfl⟩⟩
    · exact .inr ⟨⟨.inr rfl, hvalid⟩, rejects_tpmask_iff.2 hvalid⟩
  | _ => exact .inl ⟨by simp [RejectedForWidth, Instr.command], _, rfl⟩

/-- A reserved command is not one of those that check `a` (R90). -/
theorem not_rejectedForWidth_of_reserved {c : Command} (hd : decode c = .reservedOp c.op) : ¬ RejectedForWidth c := by
  rintro ⟨hop, -⟩
  have hnumber := (decode_reserved_iff c).1 hd
  obtain hop | hop := hop <;> simp [hop] at hnumber

/-- The status that a step on a command drives: ILLEGAL_OP for a reserved `op`, DOMAIN for a rejected width. -/
theorem step_status_iff {s t : State} {c : Command} {rest : List Command} {o : Output} (hc : s.commands = c :: rest)
    (hstep : step s = .next t) (ho : t.outputs = some o) :
    (o.status = .illegalOp ↔ decode c = .reservedOp c.op) ∧ (o.status = .domain ↔ RejectedForWidth c) := by
  obtain ⟨i, hd⟩ | hd := decode_cases c
  · rw [step_legal hc hd] at hstep
    obtain rfl := command_of_decode hd
    obtain ⟨hwidth, y, hexec⟩ | ⟨hwidth, hexec⟩ := exec_completes_or_rejects i { s with commands := rest }
    all_goals
      cases hexec.symm.trans hstep
      cases ho
      simp [hd, hwidth]
  · rw [step_reserved hc hd, raise_eq] at hstep
    cases hstep
    cases ho
    simp [hd, not_rejectedForWidth_of_reserved hd]

theorem statusCode_inj {st st' : Status} : statusCode st = statusCode st' ↔ st = st' := by
  cases st <;> cases st' <;> decide

/-- The host reads the code of a status exactly where that status is driven. -/
theorem readStatus_eq_iff {s : State} {o : Output} (ho : s.outputs = some o) (st : Status) :
    readStatus s = .ok (statusCode st) ↔ o.status = st := by
  rw [readStatus_some ho, Except.ok.injEq, statusCode_inj]

theorem status_eq_ok_iff (st : Status) : st = .ok ↔ ¬ st = .illegalOp ∧ ¬ st = .domain := by
  cases st <;> decide

/-- Settles O10: the driven status is ILLEGAL_OP or DOMAIN exactly on the commands named (`step_status_iff`), so it is
OK on all others, and the driven outputs are legal (`outputs_of_step`). -/
theorem statusOfACommandExactly : Obligations.StatusOfACommandExactly := by
  intro s t c rest hc hstep
  obtain ⟨o, ho, hlegal⟩ := outputs_of_step hstep
  obtain ⟨hillegal, hdomain⟩ := step_status_iff hc hstep ho
  rw [decode_eq_reservedOp_iff] at hillegal
  refine ⟨(readStatus_eq_iff ho .illegalOp).trans hillegal, (readStatus_eq_iff ho .domain).trans hdomain,
    (readStatus_eq_iff ho .ok).trans ?_, hlegal.imp (readStatus_eq_iff ho .ok).2 fun hy => ?_⟩
  · exact (status_eq_ok_iff o.status).trans (and_congr (not_congr hillegal) (not_congr hdomain))
  · rw [readY_some ho, hy]

end Sys2Proof.Machine
end

section
/-! Proofs of the statements about reset and the pipelined implementation (spec/70_reset_and_hazards.md, R100 to
R107). -/

namespace Sys2Proof.Machine

/-! ### Reset (R100, R101) -/

theorem readY_none {s : State} (h : s.outputs = none) : readY s = .error .outputsUnspecified := by
  rw [readY, readOutputs_none h]
  rfl

theorem readStatus_none {s : State} (h : s.outputs = none) : readStatus s = .error .outputsUnspecified := by
  rw [readStatus, readOutputs_none h]
  rfl

/-- Settles O12: at reset no outputs have been driven (`reset_outputs`), and a step on a presented command drives
outputs that depend on that command alone (`step_drives`). -/
theorem afterResetNothingToReadUntilTheFirstCommand : Obligations.AfterResetNothingToReadUntilTheFirstCommand := by
  refine ⟨readOutputs_none reset_outputs, readY_none reset_outputs, readStatus_none reset_outputs, fun c s => ?_⟩
  obtain ⟨o, -, hstep⟩ := step_drives c
  exact ⟨o, hstep _ _ (present_commands c State.reset), hstep _ _ (present_commands c s), readOutputs_some rfl⟩

/-! ### The pipeline as a first-in first-out queue (R105, R106) -/

/-- The commands in flight, the oldest first, with the issued one behind them: a cycle takes off the first of these,
delivers its `eval`, and leaves the others in flight. -/
theorem pipeCycle_takes_oldest (issued : Option Command) (p : Pipe) :
    ∃ oldest : Option Command, (pipeCycle issued p).1 = oldest.bind eval ∧
      p.stages.reverse ++ [issued] = oldest :: (pipeCycle issued p).2.stages.reverse := by
  refine ⟨(issued :: p.stages).getLast (List.cons_ne_nil _ _), by rw [pipeCycle_eq], ?_⟩
  rw [pipeCycle_eq, ← List.reverse_concat, List.dropLast_append_getLast, List.reverse_cons]

/-- Successive cycles deliver, in order, the commands in flight at their start and then the issued ones, as many as there
are cycles. -/
theorem pipeRun_delivers (issued : List (Option Command)) (p : Pipe) :
    (pipeRun issued p).1 = ((p.stages.reverse ++ issued).take issued.length).map (·.bind eval) := by
  induction issued generalizing p with
  | nil => simp
  | cons c later ih =>
    obtain ⟨oldest, hout, hqueue⟩ := pipeCycle_takes_oldest c p
    have hstream : p.stages.reverse ++ c :: later = oldest :: ((pipeCycle c p).2.stages.reverse ++ later) := by
      rw [← List.cons_append, ← hqueue, List.append_assoc, List.singleton_append]
    rw [pipeRun_cons, hstream, ih, hout, List.length_cons, List.take_succ_cons, List.map_cons]

/-- After reset the cycles deliver `latency` empty places before the first issued command. -/
theorem pipeRun_pipeOfLatency_getElem? {latency n : Nat} {issued : List (Option Command)} (hn : n < issued.length) :
    (pipeRun issued (pipeOfLatency latency)).1[n]? =
      ((List.replicate latency none ++ issued)[n]?).map (·.bind eval) := by
  rw [pipeRun_delivers, List.getElem?_map, List.getElem?_take_of_lt hn, pipeOfLatency, List.reverse_replicate]

/-- Settles O16: the delivered places are the `latency` empty ones of reset and then the issued commands in order
(`pipeRun_pipeOfLatency_getElem?`), so slot `n` holds the command of cycle `n - latency`. -/
theorem pipelineDeliversInOrderAfterItsLatency : Obligations.PipelineDeliversInOrderAfterItsLatency := by
  intro latency issued
  refine ⟨?_, fun n hn => ⟨fun hbefore => ?_, fun hafter => ?_⟩⟩
  · rw [pipeRun_delivers, List.length_map, List.length_take, List.length_append]
    omega
  · rw [pipeRun_pipeOfLatency_getElem? hn, List.getElem?_append_left (by simpa using hbefore),
      List.getElem?_replicate_of_lt hbefore]
    rfl
  · rw [pipeRun_pipeOfLatency_getElem? hn, List.getElem?_append_right (by simpa using hafter), List.length_replicate]

/-- Settles O17, by induction on the cycles: one cycle keeps the number of stages (`pipeCycle_length`). -/
theorem pipelineKeepsItsLatency : Obligations.PipelineKeepsItsLatency := by
  intro issued
  induction issued with
  | nil => intro p; rfl
  | cons c later ih =>
    intro p
    rw [pipeRun_cons, ih, pipeCycle_length]

end Sys2Proof.Machine
end
